-- ==== Sys2Proof/Word.lean ====
section
/-! DEFINITION. The word types of the hardware (spec/00_scope.md R9, R10): bytes, instruction words, and the 4-bit and 12-bit
fields of an instruction word. All are unsigned; bit 0 is the least significant bit. -/

namespace Sys2Proof

/-- An 8-bit value: a general register, a timer, a memory byte, the field `kk`. -/
abbrev Byte := BitVec 8

/-- A 16-bit value: an instruction word, `I`, `pc`, a call-stack entry. -/
abbrev Word := BitVec 16

/-- A 4-bit field: a sub-key, a row count, unread bits. -/
abbrev Nibble := BitVec 4

/-- A register number, or a key number: 0 to 15, every value legal (spec/10_state.md R20, spec/30_encoding.md R73). -/
abbrev Reg := BitVec 4

/-- The 12-bit immediate `nnn` (spec/30_encoding.md R71). -/
abbrev Addr := BitVec 12

end Sys2Proof
end

