-- ==== Sys2Proof/Syntax.lean ====
section
/-! DEFINITION. The instructions: one constructor per row of spec/opcode_table.json, in the table's order (spec/30_encoding.md
R76). Operands are the fields of the word as they stand (R71, R73). A constructor whose word has bits the decoder does not
read (R77; the table's `i` bits) carries them as its LAST argument `ign`, so that no bit of a word is lost; no meaning uses them
(log entry 7). A word that matches no row has no constructor: it runs the no-op handler (R78, log entry 27). -/

namespace Sys2Proof

inductive Instr where
  /-- 00E0: clear the framebuffer (R100); `ign` is bits 11..4. -/
  | cls (ign : Byte)
  /-- 00EE: return from subroutine (R101); `ign` is bits 11..4. -/
  | ret (ign : Byte)
  /-- 1nnn: jump (R102). -/
  | jp (nnn : Addr)
  /-- 2nnn: call subroutine (R103). -/
  | call (nnn : Addr)
  /-- 3xkk: skip if `V[x]` = kk (R110). -/
  | seKk (x : Reg) (kk : Byte)
  /-- 4xkk: skip if `V[x]` ≠ kk (R111). -/
  | sneKk (x : Reg) (kk : Byte)
  /-- 5xy0: skip if `V[x]` = `V[y]` (R112); `ign` is bits 3..0. -/
  | seVy (x y : Reg) (ign : Nibble)
  /-- 6xkk: load immediate (R121). -/
  | ldKk (x : Reg) (kk : Byte)
  /-- 7xkk: add immediate, no flag (R122). -/
  | addKk (x : Reg) (kk : Byte)
  /-- 8xy0: copy register (R123). -/
  | ldVy (x y : Reg)
  /-- 8xy1: bitwise OR (R124). -/
  | orVy (x y : Reg)
  /-- 8xy2: bitwise AND (R125). -/
  | andVy (x y : Reg)
  /-- 8xy3: bitwise XOR (R126). -/
  | xorVy (x y : Reg)
  /-- 8xy4: add with carry flag (R127). -/
  | addVy (x y : Reg)
  /-- 8xy5: `V[x]` − `V[y]`, no-borrow flag (R128). -/
  | subVy (x y : Reg)
  /-- 8xy6: shift right by one (R129); `y` is an operand field the instruction does not use. -/
  | shr (x y : Reg)
  /-- 8xy7: `V[y]` − `V[x]`, no-borrow flag (R130). -/
  | subnVy (x y : Reg)
  /-- 8xyE: shift left by one (R131); `y` is an operand field the instruction does not use. -/
  | shl (x y : Reg)
  /-- 9xy0: skip if `V[x]` ≠ `V[y]` (R113); `ign` is bits 3..0. -/
  | sneVy (x y : Reg) (ign : Nibble)
  /-- Annn: set index (R141). -/
  | ldI (nnn : Addr)
  /-- Bnnn: jump to nnn + `V[0]` (R104). -/
  | jpV0 (nnn : Addr)
  /-- Cxkk: random byte AND kk (R140). -/
  | rnd (x : Reg) (kk : Byte)
  /-- Dxyn: draw sprite of n rows (R150). -/
  | drw (x y : Reg) (n : Nibble)
  /-- Ex9E: skip if key `V[x]` pressed (R160); `ign` is bits 7..4. -/
  | skp (x : Reg) (ign : Nibble)
  /-- ExA1: skip if key `V[x]` not pressed (R161); `ign` is bits 7..4. -/
  | sknp (x : Reg) (ign : Nibble)
  /-- Fx07: read delay timer (R163). -/
  | ldVxDt (x : Reg)
  /-- Fx0A: wait for a key (R162). -/
  | ldVxK (x : Reg)
  /-- Fx15: write delay timer (R164). -/
  | ldDtVx (x : Reg)
  /-- Fx18: write sound timer (R165). -/
  | ldStVx (x : Reg)
  /-- Fx1E: add register to index (R142). -/
  | addI (x : Reg)
  /-- Fx29: index := glyph address (R143). -/
  | ldF (x : Reg)
  /-- Fx33: store BCD digits (R144). -/
  | ldB (x : Reg)
  /-- Fx55: store `V[0]`..`V[x]` (R145). -/
  | stRegs (x : Reg)
  /-- Fx65: load `V[0]`..`V[x]` (R146). -/
  | ldRegs (x : Reg)
  deriving DecidableEq, Repr

/-- The row's mnemonic in spec/opcode_table.json, letter for letter. -/
def Instr.mnemonic : Instr → String
  | .cls _ => "CLS"
  | .ret _ => "RET"
  | .jp _ => "JP_nnn"
  | .call _ => "CALL_nnn"
  | .seKk _ _ => "SE_Vx__kk"
  | .sneKk _ _ => "SNE_Vx__kk"
  | .seVy _ _ _ => "SE_Vx__Vy"
  | .ldKk _ _ => "LD_Vx__kk"
  | .addKk _ _ => "ADD_Vx__kk"
  | .ldVy _ _ => "LD_Vx__Vy"
  | .orVy _ _ => "OR_Vx__Vy"
  | .andVy _ _ => "AND_Vx__Vy"
  | .xorVy _ _ => "XOR_Vx__Vy"
  | .addVy _ _ => "ADD_Vx__Vy"
  | .subVy _ _ => "SUB_Vx__Vy"
  | .shr _ _ => "SHR_Vx"
  | .subnVy _ _ => "SUBN_Vx__Vy"
  | .shl _ _ => "SHL_Vx"
  | .sneVy _ _ _ => "SNE_Vx__Vy"
  | .ldI _ => "LD_I__nnn"
  | .jpV0 _ => "JP_V0__nnn"
  | .rnd _ _ => "RND_Vx__kk"
  | .drw _ _ _ => "DRW_Vx__Vy__n"
  | .skp _ _ => "SKP_Vx"
  | .sknp _ _ => "SKNP_Vx"
  | .ldVxDt _ => "LD_Vx__DT"
  | .ldVxK _ => "LD_Vx__K"
  | .ldDtVx _ => "LD_DT__Vx"
  | .ldStVx _ => "LD_ST__Vx"
  | .addI _ => "ADD_I__Vx"
  | .ldF _ => "LD_F__Vx"
  | .ldB _ => "LD_B__Vx"
  | .stRegs _ => "LD__I___Vx"
  | .ldRegs _ => "LD_Vx___I"

end Sys2Proof
end

