-- ==== Sys2Proof/WellFormed.lean ====
section
/-! DEFINITION. Well-formed instructions: those spelled by their canonical encoding, the one word per operand value that the
standard set assigns (spec/30_encoding.md R77: "A valid program image uses canonical encodings only"). Every operand value is
legal (R73), so the one thing an instruction can get wrong is its unread bits: 00E0, 00EE, 5xy0, 9xy0, Ex9E, ExA1. An
ill-formed instruction is not an error of the hardware: it executes as its canonical form does (R77), and no statement about
executing assumes well-formedness (log entry 7). -/

namespace Sys2Proof

/-- The unread bits, where there are any, are those of the canonical word of R76. -/
def Instr.wellFormed : Instr → Bool
  | .cls ign => ign == 0x0E#8
  | .ret ign => ign == 0x0E#8
  | .seVy _ _ ign => ign == 0x0#4
  | .sneVy _ _ ign => ign == 0x0#4
  | .skp _ ign => ign == 0x9#4
  | .sknp _ ign => ign == 0xA#4
  | .jp _ => true
  | .call _ => true
  | .seKk _ _ => true
  | .sneKk _ _ => true
  | .ldKk _ _ => true
  | .addKk _ _ => true
  | .ldVy _ _ => true
  | .orVy _ _ => true
  | .andVy _ _ => true
  | .xorVy _ _ => true
  | .addVy _ _ => true
  | .subVy _ _ => true
  | .shr _ _ => true
  | .subnVy _ _ => true
  | .shl _ _ => true
  | .ldI _ => true
  | .jpV0 _ => true
  | .rnd _ _ => true
  | .drw _ _ _ => true
  | .ldVxDt _ => true
  | .ldVxK _ => true
  | .ldDtVx _ => true
  | .ldStVx _ => true
  | .addI _ => true
  | .ldF _ => true
  | .ldB _ => true
  | .stRegs _ => true
  | .ldRegs _ => true

end Sys2Proof
end

