-- ==== Sys2Proof/Decode.lean ====
section
/-! DEFINITION. The decoder (spec/30_encoding.md R70 to R79) and, after it, the encoder. Decoding reads the class and, for
classes 0x0, 0x8, 0xE and 0xF, the sub-key, and nothing else (R74, R75). The numeric classes and sub-keys are the spec's D3
(log entry 6); the aliases are its D2 (log entry 7). -/

namespace Sys2Proof

/-! ### Fields of the word (R71) -/

/-- `w[15:12]`, the class. -/
def Word.cls (w : Word) : Nibble := w.extractLsb' 12 4
/-- `w[11:8]`, the first register number. -/
def Word.x (w : Word) : Reg := w.extractLsb' 8 4
/-- `w[7:4]`, the second register number. -/
def Word.y (w : Word) : Reg := w.extractLsb' 4 4
/-- `w[3:0]`, the low nibble. -/
def Word.n (w : Word) : Nibble := w.extractLsb' 0 4
/-- `w[7:0]`, the low byte. -/
def Word.kk (w : Word) : Byte := w.extractLsb' 0 8
/-- `w[11:0]`, the immediate address. -/
def Word.nnn (w : Word) : Addr := w.extractLsb' 0 12
/-- `w[11:4]`, the bits of a class-0 word that the decoder does not read. -/
def Word.mid (w : Word) : Byte := w.extractLsb' 4 8

/-- The byte at the lower address: bits 15 to 8 (R53, R71). -/
def Word.hi (w : Word) : Byte := w.extractLsb' 8 8
/-- The byte at the higher address: bits 7 to 0 (R53, R71). -/
def Word.lo (w : Word) : Byte := w.extractLsb' 0 8
/-- Big-endian: the first byte is the high one (spec/20_memory.md R53). -/
def Word.ofBytes (hi lo : Byte) : Word := hi ++ lo

/-! ### Decoding -/

/-- Why a byte sequence is no instruction: too short, or an unrecognised (class, sub-key) pair of R78. -/
inductive Reject where
  /-- fewer than two bytes -/
  | truncated
  /-- class 0x0, low nibble neither 0 nor 0xE -/
  | class0 (n : Nibble)
  /-- class 0x8, low nibble 8 to 0xD or 0xF -/
  | class8 (n : Nibble)
  /-- class 0xE, low nibble neither 1 nor 0xE -/
  | classE (n : Nibble)
  /-- class 0xF, low byte of no row -/
  | classF (kk : Byte)
  deriving DecidableEq, Repr

/-- Secondary decode of class 0x0, by the low nibble (R75). -/
def decodeClass0 (w : Word) : Except Reject Instr :=
  match Word.n w with
  | 0x0#4 => .ok (.cls (Word.mid w))
  | 0xE#4 => .ok (.ret (Word.mid w))
  | n => .error (.class0 n)

/-- Secondary decode of class 0x8, by the low nibble (R75). -/
def decodeClass8 (w : Word) : Except Reject Instr :=
  match Word.n w with
  | 0x0#4 => .ok (.ldVy (Word.x w) (Word.y w))
  | 0x1#4 => .ok (.orVy (Word.x w) (Word.y w))
  | 0x2#4 => .ok (.andVy (Word.x w) (Word.y w))
  | 0x3#4 => .ok (.xorVy (Word.x w) (Word.y w))
  | 0x4#4 => .ok (.addVy (Word.x w) (Word.y w))
  | 0x5#4 => .ok (.subVy (Word.x w) (Word.y w))
  | 0x6#4 => .ok (.shr (Word.x w) (Word.y w))
  | 0x7#4 => .ok (.subnVy (Word.x w) (Word.y w))
  | 0xE#4 => .ok (.shl (Word.x w) (Word.y w))
  | n => .error (.class8 n)

/-- Secondary decode of class 0xE, by the low nibble (R75). -/
def decodeClassE (w : Word) : Except Reject Instr :=
  match Word.n w with
  | 0xE#4 => .ok (.skp (Word.x w) (Word.y w))
  | 0x1#4 => .ok (.sknp (Word.x w) (Word.y w))
  | n => .error (.classE n)

/-- Secondary decode of class 0xF, by the low byte (R75). -/
def decodeClassF (w : Word) : Except Reject Instr :=
  match Word.kk w with
  | 0x07#8 => .ok (.ldVxDt (Word.x w))
  | 0x0A#8 => .ok (.ldVxK (Word.x w))
  | 0x15#8 => .ok (.ldDtVx (Word.x w))
  | 0x18#8 => .ok (.ldStVx (Word.x w))
  | 0x1E#8 => .ok (.addI (Word.x w))
  | 0x29#8 => .ok (.ldF (Word.x w))
  | 0x33#8 => .ok (.ldB (Word.x w))
  | 0x55#8 => .ok (.stRegs (Word.x w))
  | 0x65#8 => .ok (.ldRegs (Word.x w))
  | kk => .error (.classF kk)

/-- Primary decode, by the class alone (R74). The last arm is class 0xF, the only one left. -/
def decode (w : Word) : Except Reject Instr :=
  match Word.cls w with
  | 0x0#4 => decodeClass0 w
  | 0x1#4 => .ok (.jp (Word.nnn w))
  | 0x2#4 => .ok (.call (Word.nnn w))
  | 0x3#4 => .ok (.seKk (Word.x w) (Word.kk w))
  | 0x4#4 => .ok (.sneKk (Word.x w) (Word.kk w))
  | 0x5#4 => .ok (.seVy (Word.x w) (Word.y w) (Word.n w))
  | 0x6#4 => .ok (.ldKk (Word.x w) (Word.kk w))
  | 0x7#4 => .ok (.addKk (Word.x w) (Word.kk w))
  | 0x8#4 => decodeClass8 w
  | 0x9#4 => .ok (.sneVy (Word.x w) (Word.y w) (Word.n w))
  | 0xA#4 => .ok (.ldI (Word.nnn w))
  | 0xB#4 => .ok (.jpV0 (Word.nnn w))
  | 0xC#4 => .ok (.rnd (Word.x w) (Word.kk w))
  | 0xD#4 => .ok (.drw (Word.x w) (Word.y w) (Word.n w))
  | 0xE#4 => decodeClassE w
  | _ => decodeClassF w

/-- The decoder on bytes as memory holds them, lowest address first: the instruction and what follows it. -/
def decodeBytes : List Byte → Except Reject (Instr × List Byte)
  | hi :: lo :: rest => (decode (Word.ofBytes hi lo)).map (fun i => (i, rest))
  | _ => .error .truncated

/-- The instruction the decoder reads from the table word `w` of `nbits` bits, laid out big-endian (R53). -/
def decodeTableWord (nbits w : Nat) : Option Instr :=
  let word : Word := BitVec.ofNat 16 (w % 2 ^ nbits)
  match decodeBytes [Word.hi word, Word.lo word] with
  | .ok (i, _) => some i
  | .error _ => none

/-! ### The encoder, from the same table (R72, R76) -/

/-- The word of an instruction, each field in its place, the unread bits as the instruction carries them. -/
def encode : Instr → Word
  | .cls ign => 0x0#4 ++ ign ++ 0x0#4
  | .ret ign => 0x0#4 ++ ign ++ 0xE#4
  | .jp nnn => 0x1#4 ++ nnn
  | .call nnn => 0x2#4 ++ nnn
  | .seKk x kk => 0x3#4 ++ x ++ kk
  | .sneKk x kk => 0x4#4 ++ x ++ kk
  | .seVy x y ign => 0x5#4 ++ x ++ y ++ ign
  | .ldKk x kk => 0x6#4 ++ x ++ kk
  | .addKk x kk => 0x7#4 ++ x ++ kk
  | .ldVy x y => 0x8#4 ++ x ++ y ++ 0x0#4
  | .orVy x y => 0x8#4 ++ x ++ y ++ 0x1#4
  | .andVy x y => 0x8#4 ++ x ++ y ++ 0x2#4
  | .xorVy x y => 0x8#4 ++ x ++ y ++ 0x3#4
  | .addVy x y => 0x8#4 ++ x ++ y ++ 0x4#4
  | .subVy x y => 0x8#4 ++ x ++ y ++ 0x5#4
  | .shr x y => 0x8#4 ++ x ++ y ++ 0x6#4
  | .subnVy x y => 0x8#4 ++ x ++ y ++ 0x7#4
  | .shl x y => 0x8#4 ++ x ++ y ++ 0xE#4
  | .sneVy x y ign => 0x9#4 ++ x ++ y ++ ign
  | .ldI nnn => 0xA#4 ++ nnn
  | .jpV0 nnn => 0xB#4 ++ nnn
  | .rnd x kk => 0xC#4 ++ x ++ kk
  | .drw x y n => 0xD#4 ++ x ++ y ++ n
  | .skp x ign => 0xE#4 ++ x ++ ign ++ 0xE#4
  | .sknp x ign => 0xE#4 ++ x ++ ign ++ 0x1#4
  | .ldVxDt x => 0xF#4 ++ x ++ 0x07#8
  | .ldVxK x => 0xF#4 ++ x ++ 0x0A#8
  | .ldDtVx x => 0xF#4 ++ x ++ 0x15#8
  | .ldStVx x => 0xF#4 ++ x ++ 0x18#8
  | .addI x => 0xF#4 ++ x ++ 0x1E#8
  | .ldF x => 0xF#4 ++ x ++ 0x29#8
  | .ldB x => 0xF#4 ++ x ++ 0x33#8
  | .stRegs x => 0xF#4 ++ x ++ 0x55#8
  | .ldRegs x => 0xF#4 ++ x ++ 0x65#8

/-- The two bytes of an instruction as memory holds them, the high byte first (R53, R70). -/
def encodeBytes (i : Instr) : List Byte := [Word.hi (encode i), Word.lo (encode i)]

/-! ### The opcode map of R76, as a table -/

/-- One row of R76: a word `w` selects it when `w AND mask = mtch`. -/
structure OpcodeRow where
  mnemonic : String
  mask : Word
  mtch : Word
  deriving DecidableEq, Repr

/-- `w` selects the row `r`. -/
def OpcodeRow.selects (r : OpcodeRow) (w : Word) : Bool := w &&& r.mask == r.mtch

/-- Rows 1 to 18 of R76. -/
def opcodeMapLow : List OpcodeRow :=
  [⟨"CLS", 0xF00F, 0x0000⟩, ⟨"RET", 0xF00F, 0x000E⟩, ⟨"JP_nnn", 0xF000, 0x1000⟩, ⟨"CALL_nnn", 0xF000, 0x2000⟩,
    ⟨"SE_Vx__kk", 0xF000, 0x3000⟩, ⟨"SNE_Vx__kk", 0xF000, 0x4000⟩] ++
  [⟨"SE_Vx__Vy", 0xF000, 0x5000⟩, ⟨"LD_Vx__kk", 0xF000, 0x6000⟩, ⟨"ADD_Vx__kk", 0xF000, 0x7000⟩] ++
  [⟨"LD_Vx__Vy", 0xF00F, 0x8000⟩, ⟨"OR_Vx__Vy", 0xF00F, 0x8001⟩, ⟨"AND_Vx__Vy", 0xF00F, 0x8002⟩,
    ⟨"XOR_Vx__Vy", 0xF00F, 0x8003⟩, ⟨"ADD_Vx__Vy", 0xF00F, 0x8004⟩, ⟨"SUB_Vx__Vy", 0xF00F, 0x8005⟩,
    ⟨"SHR_Vx", 0xF00F, 0x8006⟩, ⟨"SUBN_Vx__Vy", 0xF00F, 0x8007⟩, ⟨"SHL_Vx", 0xF00F, 0x800E⟩]

/-- Rows 19 to 34 of R76. -/
def opcodeMapHigh : List OpcodeRow :=
  [⟨"SNE_Vx__Vy", 0xF000, 0x9000⟩, ⟨"LD_I__nnn", 0xF000, 0xA000⟩, ⟨"JP_V0__nnn", 0xF000, 0xB000⟩,
    ⟨"RND_Vx__kk", 0xF000, 0xC000⟩, ⟨"DRW_Vx__Vy__n", 0xF000, 0xD000⟩] ++
  [⟨"SKP_Vx", 0xF00F, 0xE00E⟩, ⟨"SKNP_Vx", 0xF00F, 0xE001⟩] ++
  [⟨"LD_Vx__DT", 0xF0FF, 0xF007⟩, ⟨"LD_Vx__K", 0xF0FF, 0xF00A⟩, ⟨"LD_DT__Vx", 0xF0FF, 0xF015⟩,
    ⟨"LD_ST__Vx", 0xF0FF, 0xF018⟩, ⟨"ADD_I__Vx", 0xF0FF, 0xF01E⟩, ⟨"LD_F__Vx", 0xF0FF, 0xF029⟩] ++
  [⟨"LD_B__Vx", 0xF0FF, 0xF033⟩, ⟨"LD__I___Vx", 0xF0FF, 0xF055⟩, ⟨"LD_Vx___I", 0xF0FF, 0xF065⟩]

/-- The 34 rows of R76. -/
def opcodeMap : List OpcodeRow := opcodeMapLow ++ opcodeMapHigh

end Sys2Proof
end

