-- ==== Sys2Proof/Config.lean ====
section
/-! DEFINITION. The constants of the hardware (spec/00_scope.md R5) and its one free value, the random byte
(spec/44_random_index_memory.md R140). -/

namespace Sys2Proof.Config

/-- `MEM_SIZE`: the bytes of memory, addresses 0x000 to 0xFFF. -/
def memSize : Nat := 4096

/-- `FONT_BASE`: the address of the built-in font. -/
def fontBase : Nat := 0x050

/-- `PROG_BASE`: where Load places the image, and the `pc` after reset. -/
def progBase : Nat := 0x200

/-- `MAX_IMAGE`: the largest program image Load accepts, 3584 bytes. -/
def maxImage : Nat := memSize - progBase

/-- FREE VALUE, log entry 3: the byte the random source yields at its `k`-th draw. The spec gives the source no law (R33, R140,
D15), so this has no body and nothing can be proved of its values. -/
opaque drawByte : Nat → Byte

end Sys2Proof.Config
end

