-- ==== Sys2Proof/Machine/Memory.lean ====
section
/-! DEFINITION. Memory (spec/20_memory.md): 4096 bytes, held as the list of (address, byte) pairs that differ from the reset
contents, addresses strictly rising (log entry 9). The reset contents are the font at 0x050 and zero elsewhere (R51, R52). -/

namespace Sys2Proof.Machine

/-- The cells that differ from the reset contents, addresses strictly rising. -/
abbrev Memory := List Host.Cell

/-- Glyphs 0 to 7 of R52, five bytes each. -/
def fontLow : List Byte :=
  [0xF0, 0x90, 0x90, 0x90, 0xF0] ++ [0x20, 0x60, 0x20, 0x20, 0x70] ++ [0xF0, 0x10, 0xF0, 0x80, 0xF0] ++
  [0xF0, 0x10, 0xF0, 0x10, 0xF0] ++ [0x90, 0x90, 0xF0, 0x10, 0x10] ++ [0xF0, 0x80, 0xF0, 0x10, 0xF0] ++
  [0xF0, 0x80, 0xF0, 0x90, 0xF0] ++ [0xF0, 0x10, 0x20, 0x40, 0x40]

/-- Glyphs 8 to F of R52, five bytes each. -/
def fontHigh : List Byte :=
  [0xF0, 0x90, 0xF0, 0x90, 0xF0] ++ [0xF0, 0x90, 0xF0, 0x10, 0xF0] ++ [0xF0, 0x90, 0xF0, 0x90, 0x90] ++
  [0xE0, 0x90, 0xE0, 0x90, 0xE0] ++ [0xF0, 0x80, 0x80, 0x80, 0xF0] ++ [0xE0, 0x90, 0x90, 0x90, 0xE0] ++
  [0xF0, 0x80, 0xF0, 0x80, 0xF0] ++ [0xF0, 0x80, 0xF0, 0x80, 0x80]

/-- The 80 font bytes of R52 (the spec's D4, log entry 8). -/
def fontBytes : List Byte := fontLow ++ fontHigh

/-- What an address holds after reset, and so what an unlisted address reads as (R36, R51). -/
def resetByte (a : Nat) : Byte :=
  if Config.fontBase ≤ a ∧ a < Config.fontBase + 80 then fontBytes.getD (a - Config.fontBase) 0 else 0

/-- The byte at address `a`. Every access goes through `memRead` or the fetch, which check the bound first (R55). -/
def Memory.read : Memory → Nat → Byte
  | [], a => resetByte a
  | (c, b) :: m, a => if a = c then b else if a < c then resetByte a else Memory.read m a

/-- `(a, b)` before `m`, unless `b` is what an unlisted `a` reads as. -/
def Memory.cons (a : Nat) (b : Byte) (m : Memory) : Memory := if b = resetByte a then m else (a, b) :: m

/-- The insertion behind `Memory.write`. -/
def Memory.insert (a : Nat) (b : Byte) : Memory → Memory
  | [] => Memory.cons a b []
  | (c, d) :: m =>
    if a = c then Memory.cons a b m
    else if a < c then Memory.cons a b ((c, d) :: m)
    else (c, d) :: Memory.insert a b m

/-- Memory with byte `b` at address `a`; nothing lies above 0xFFF, so there is nothing to change there (R50). -/
def Memory.write (m : Memory) (a : Nat) (b : Byte) : Memory :=
  if a < Config.memSize then Memory.insert a b m else m

/-- Memory with the bytes `bs` at `a`, `a + 1`, ... -/
def Memory.writeBytes (m : Memory) (a : Nat) : List Byte → Memory
  | [] => m
  | b :: bs => Memory.writeBytes (m.write a b) (a + 1) bs

/-- The 16-bit word at `a`, big-endian (R53). -/
def Memory.wordAt (m : Memory) (a : Nat) : Word := m.read a ++ m.read (a + 1)

/-- The canonical form from address `lo` on: addresses at least `lo`, strictly rising, inside memory, no byte equal to what an
unlisted address reads as. -/
def Memory.wfFrom (lo : Nat) : Memory → Bool
  | [] => true
  | (a, b) :: m => decide (lo ≤ a) && decide (a < Config.memSize) && (b != resetByte a) && Memory.wfFrom (a + 1) m

/-- The canonical form (log entry 9). -/
def Memory.wf (m : Memory) : Bool := Memory.wfFrom 0 m

end Sys2Proof.Machine
end

