-- ==== Sys2Proof/Machine/State.lean ====
section
/-! DEFINITION. The state of the machine (spec/10_state.md: the list there is closed), its value after reset (R36), and the
reasons a step can stop. -/

namespace Sys2Proof.Machine

/-- The defined errors with the information each records (spec/60_exceptions.md R170; the names are the spec's D26). -/
inductive DefinedError where
  /-- Raised by the fetch when `pc` > 0xFFE; records `pc` (R171). -/
  | fetchOutOfBounds (pc : Word)
  /-- Raised by Dxyn, Fx33, Fx55, Fx65; records the lowest address of the access above 0xFFF (R172). -/
  | memoryOutOfBounds (addr : Nat)
  /-- Raised by 2nnn with 16 entries in use (R173). -/
  | stackOverflow
  /-- Raised by 00EE with no entry in use (R174). -/
  | stackUnderflow
  /-- Raised by Ex9E and ExA1 when `V[x]` > 15; records `V[x]` (R175). -/
  | keyIndexOutOfRange (v : Byte)
  /-- Raised by Load when the image has more than 3584 bytes; records its length (R176). -/
  | loadError (len : Nat)
  deriving DecidableEq, Repr

/-- The code of the error latch (R170): 0 when it holds none. -/
def DefinedError.code : Option DefinedError → Nat
  | none => 0
  | some (.fetchOutOfBounds _) => 1
  | some (.memoryOutOfBounds _) => 2
  | some .stackOverflow => 3
  | some .stackUnderflow => 4
  | some (.keyIndexOutOfRange _) => 5
  | some (.loadError _) => 6

/-- The framebuffer: 32 rows of 64 pixels, true for on (R31). -/
abbrev Frame := Vector (Vector Bool 64) 32

/-- Everything the spec gives the machine (R20 to R34), and two fields of the model's own, `drawn` and `loadOpen`. -/
structure State where
  /-- `V[0]` to `V[15]`; `V[15]` is `VF` (R20, R22). -/
  v : Vector Byte 16
  /-- the index register `I` (R24) -/
  i : Word
  /-- the program counter (R25) -/
  pc : Word
  /-- the call stack `S[0]` to `S[15]` (R27) -/
  stack : Vector Word 16
  /-- the stack pointer: how many entries are in use, 0 to 16 (R28) -/
  sp : Fin 17
  /-- the delay timer `DT` (R29) -/
  dt : Byte
  /-- the sound timer `ST` (R29) -/
  st : Byte
  /-- the input map `K[0]` to `K[15]`, true for pressed, written by the host only (R30) -/
  keys : Vector Bool 16
  /-- the framebuffer `FB` (R31) -/
  frame : Frame
  /-- the memory `MEM` (R32) -/
  mem : Memory
  /-- the error latch `ERR` (R34) -/
  err : Option DefinedError
  /-- MODEL'S OWN, log entry 3: how many bytes the random source has yielded; `Config.drawByte drawn` is the next. -/
  drawn : Nat
  /-- MODEL'S OWN, log entry 10: neither a Load nor a completed Step has happened since reset, so Load has a meaning (R192). -/
  loadOpen : Bool
  deriving DecidableEq, Repr

/-- The machine right after reset (R36). The values of `I`, `sp`, `DT`, `ST`, `FB` and `K` are the spec's own D17 (log entry 5),
that of `drawn` is the model's (log entry 3). -/
def State.reset : State where
  v := Vector.replicate 16 0
  i := 0
  pc := 0x200
  stack := Vector.replicate 16 0
  sp := 0
  dt := 0
  st := 0
  keys := Vector.replicate 16 false
  frame := Vector.replicate 32 (Vector.replicate 64 false)
  mem := []
  err := none
  drawn := 0
  loadOpen := true

/-- Why a step or a Load stops. -/
inductive Fault where
  /-- Raised by Step and by Load when `ERR` is not none: the run has already ended with error `e`, the transaction is refused,
  changes nothing and reports `e` again (R91, R180). Safe: the machine makes no further step. -/
  | latched (e : DefinedError)
  deriving DecidableEq, Repr

/-- What the model gives no meaning. -/
inductive Refusal where
  /-- Raised by `exec` for an instruction without a meaning; no arm of this model raises it. Safe. -/
  | notModelled (mnemonic : String)
  /-- Raised by Load other than once, after Reset, before the first Step: the spec gives it no meaning and asks a model to
  refuse it (R192, D21). Safe. -/
  | loadOutsideContract
  deriving DecidableEq, Repr

/-- The outcome of a step, an instruction or a transaction. -/
abbrev Result := Host.Outcome State Fault Refusal

end Sys2Proof.Machine
end

