-- ==== Sys2Proof/Machine/Ops.lean ====
section
/-! DEFINITION. The named operations over registers, stack, memory, framebuffer and timers; raising a defined error
(spec/60_exceptions.md R179); and the stages of a Step around its handler (spec/40_step_cycle.md R92, R93, R96, R97). -/

namespace Sys2Proof.Machine

/-! ### Registers (spec/10_state.md R20, R22, R24) -/

/-- Read `V[x]`. -/
def State.reg (s : State) (x : Reg) : Byte := s.v[x.toNat]'x.isLt

/-- `V[x] <- b`. -/
def State.setReg (s : State) (x : Reg) (b : Byte) : State := { s with v := s.v.set x.toNat b x.isLt }

/-- `VF <- flag`, the flag always exactly 0 or 1 (R120). -/
def State.setFlag (s : State) (flag : Bool) : State := s.setReg 0xF (if flag then 1 else 0)

/-- The result to `V[x]`, then the flag to `VF`: the common order of the flag-writing instructions (R23, R120). -/
def State.setResult (s : State) (x : Reg) (result : Byte) (flag : Bool) : State := (s.setReg x result).setFlag flag

/-- `I <- a`. -/
def State.setI (s : State) (a : Word) : State := { s with i := a }

/-- `pc <- a`. -/
def State.setPc (s : State) (a : Word) : State := { s with pc := a }

/-- `DT <- b`. -/
def State.setDt (s : State) (b : Byte) : State := { s with dt := b }

/-- `ST <- b`. -/
def State.setSt (s : State) (b : Byte) : State := { s with st := b }

/-- The registers `V[k]`, `V[k+1]`, ... written with the bytes of the list, in ascending order (R146). -/
def State.setRegs (s : State) (k : Nat) : List Byte → State
  | [] => s
  | b :: bs => State.setRegs (s.setReg (BitVec.ofNat 4 k) b) (k + 1) bs

/-- The values of `V[0]` to `V[n-1]`, in ascending order (R145). -/
def State.regs (s : State) (n : Nat) : List Byte := (List.range n).map (fun k => s.reg (BitVec.ofNat 4 k))

/-! ### Defined errors (spec/60_exceptions.md) -/

/-- Entry of a defined error (R179): `ERR <- e`, nothing else. -/
def State.raise (s : State) (e : DefinedError) : State := { s with err := some e }

/-- How a handler that can raise ends: with the state it made, or with the error raised on the state it was given, so that
nothing it did is kept (R97, R179). -/
def commit (s : State) : Except DefinedError State → Result
  | .ok t => .next t
  | .error e => .next (s.raise e)

/-! ### Call stack (R28, R101, R103) -/

/-- Push `pc`: `S[sp] <- pc`, then `sp <- sp + 1`. -/
def pushPc (s : State) : Except DefinedError State :=
  if h : s.sp.val < 16 then
    .ok { s with stack := s.stack.set s.sp.val s.pc h, sp := ⟨s.sp.val + 1, by omega⟩ }
  else .error .stackOverflow

/-- Pop `pc`: `sp <- sp - 1`, then `pc <- S[sp]`; the entry is not erased. -/
def popPc (s : State) : Except DefinedError State :=
  if h : 0 < s.sp.val then
    .ok { s with sp := ⟨s.sp.val - 1, by omega⟩, pc := s.stack[s.sp.val - 1]'(by omega) }
  else .error .stackUnderflow

/-! ### Memory (spec/20_memory.md R55, R56) -/

/-- `MemRead(a, 1)` (R55). -/
def memRead (s : State) (a : Nat) : Except DefinedError Byte :=
  if a > 0xFFF then .error (.memoryOutOfBounds a) else .ok (s.mem.read a)

/-- `MemWrite(a, 1, b)` (R55). -/
def memWrite (s : State) (a : Nat) (b : Byte) : Except DefinedError State :=
  if a > 0xFFF then .error (.memoryOutOfBounds a) else .ok { s with mem := s.mem.write a b }

/-- The `n` bytes at `a`, `a + 1`, ..., or the error of the lowest address that is out of range (R56, R172). -/
def readBlock (s : State) (a : Nat) : Nat → Except DefinedError (List Byte)
  | 0 => .ok []
  | n + 1 =>
    match memRead s a with
    | .error e => .error e
    | .ok b => (readBlock s (a + 1) n).map (fun bs => b :: bs)

/-- The bytes stored at `a`, `a + 1`, ..., or the error of the lowest address that is out of range; an error keeps no store,
since the state made so far is dropped with it (R56, R172). -/
def writeBlock (s : State) (a : Nat) : List Byte → Except DefinedError State
  | [] => .ok s
  | b :: bs =>
    match memWrite s a b with
    | .error e => .error e
    | .ok t => writeBlock t (a + 1) bs

/-! ### Framebuffer (spec/10_state.md R31) -/

/-- `FB[x, y]`. -/
def Frame.pixel (f : Frame) (x : Fin 64) (y : Fin 32) : Bool := (f[y])[x]

/-- `FB[x, y] <- not FB[x, y]`. -/
def Frame.toggle (f : Frame) (x : Fin 64) (y : Fin 32) : Frame := f.set y ((f[y]).set x (!(f[y])[x]))

/-- Every pixel off. -/
def Frame.blank : Frame := Vector.replicate 32 (Vector.replicate 64 false)

/-- The framebuffer replaced by `f`. -/
def State.setFrame (s : State) (f : Frame) : State := { s with frame := f }

/-! ### Random source and keys -/

/-- `draw_byte()` (R140): the next byte of the random source, and the state after the draw. -/
def State.draw (s : State) : Byte × State := (Config.drawByte s.drawn, { s with drawn := s.drawn + 1 })

/-- `K[k]` (R30). -/
def State.key (s : State) (k : Reg) : Bool := s.keys[k.toNat]'k.isLt

/-- The key numbers in ascending order. -/
def keyOrder : List Reg := [0, 1, 2, 3, 4, 5, 6, 7] ++ [8, 9, 10, 11, 12, 13, 14, 15]

/-- The first pressed key in ascending key order (R162). -/
def State.firstKey (s : State) : Option Reg := keyOrder.find? (fun k => s.key k)

/-! ### The stages of a Step around the handler (spec/40_step_cycle.md) -/

/-- Fetch (R92). -/
def fetch (s : State) : Except DefinedError Word :=
  if s.pc.toNat > 0xFFE then .error (.fetchOutOfBounds s.pc) else .ok (s.mem.wordAt s.pc.toNat)

/-- Advance (R93): inside the handler `pc` is the post-fetch pc. -/
def State.advance (s : State) : State := s.setPc (s.pc + 2)

/-- One timer decremented toward zero (R29). -/
def tickDown (b : Byte) : Byte := if b = 0 then 0 else b - 1

/-- Timer tick (R96). -/
def State.tick (s : State) : State := { s with dt := tickDown s.dt, st := tickDown s.st }

/-- The end of a Step that began in `entry` (R96 to R98): after a handler that raised nothing the timers tick (and Load has no
meaning any more, R192); after one that raised `e` the state is `entry` with `ERR <- e`. -/
def closeStep (entry : State) : Result → Result
  | .next t =>
    match t.err with
    | none => .next { t.tick with loadOpen := false }
    | some e => .next (entry.raise e)
  | r => r

end Sys2Proof.Machine
end

