-- ==== Sys2Proof/Machine/Flags.lean ====
section
/-! DEFINITION. The results and flags of the arithmetic (spec/43_arith_logic.md R120 to R132): each function gives the 8-bit
result and the value of `VF` from the operands before the operation, computed on unbounded integers and narrowed at the end. -/

namespace Sys2Proof.Machine

/-- Sum modulo 256; the flag is the ninth bit of the sum (R127). -/
def addCarry (a b : Byte) : Byte × Bool :=
  let sum := a.toNat + b.toNat
  (BitVec.ofNat 8 (sum % 256), decide (sum > 255))

/-- Sum modulo 256 without a flag (R122). -/
def addNoFlag (a b : Byte) : Byte := BitVec.ofNat 8 ((a.toNat + b.toNat) % 256)

/-- Difference modulo 256; the flag is 1 for no borrow, that is a ≥ b (R128; spec/90_conflicts.md C1). -/
def subNoBorrow (a b : Byte) : Byte × Bool :=
  (BitVec.ofNat 8 ((a.toNat + 256 - b.toNat) % 256), decide (a.toNat ≥ b.toNat))

/-- Logical shift right by one; the flag is the bit shifted out (R129). -/
def shiftRight (a : Byte) : Byte × Bool := (BitVec.ofNat 8 (a.toNat / 2), a.getLsbD 0)

/-- Shift left by one, truncated to 8 bits; the flag is the bit shifted out (R131). -/
def shiftLeft (a : Byte) : Byte × Bool := (BitVec.ofNat 8 (a.toNat * 2 % 256), a.getLsbD 7)

end Sys2Proof.Machine
end

