-- ==== Sys2Proof/Machine/ArithLogic.lean ====
section
/-! DEFINITION. Arithmetic and logic (spec/43_arith_logic.md). -/

namespace Sys2Proof.Machine

/-- LD Vx, kk (R121). -/
def execLdKk (x : Reg) (kk : Byte) (s : State) : Result := .next (s.setReg x kk)

/-- ADD Vx, kk: no flag (R122, D5). -/
def execAddKk (x : Reg) (kk : Byte) (s : State) : Result := .next (s.setReg x (addNoFlag (s.reg x) kk))

/-- LD Vx, Vy (R123). -/
def execLdVy (x y : Reg) (s : State) : Result := .next (s.setReg x (s.reg y))

/-- OR Vx, Vy (R124). -/
def execOrVy (x y : Reg) (s : State) : Result := .next (s.setReg x (s.reg x ||| s.reg y))

/-- AND Vx, Vy (R125). -/
def execAndVy (x y : Reg) (s : State) : Result := .next (s.setReg x (s.reg x &&& s.reg y))

/-- XOR Vx, Vy (R126). -/
def execXorVy (x y : Reg) (s : State) : Result := .next (s.setReg x (s.reg x ^^^ s.reg y))

/-- The pair (result, flag) written in the common order of R120. -/
def State.setPair (s : State) (x : Reg) (rf : Byte × Bool) : State := s.setResult x rf.1 rf.2

/-- ADD Vx, Vy (R127). -/
def execAddVy (x y : Reg) (s : State) : Result := .next (s.setPair x (addCarry (s.reg x) (s.reg y)))

/-- SUB Vx, Vy (R128). -/
def execSubVy (x y : Reg) (s : State) : Result := .next (s.setPair x (subNoBorrow (s.reg x) (s.reg y)))

/-- SHR Vx (R129): `V[x]` in place, the y field unused (D7). -/
def execShr (x : Reg) (s : State) : Result := .next (s.setPair x (shiftRight (s.reg x)))

/-- SUBN Vx, Vy (R130). -/
def execSubnVy (x y : Reg) (s : State) : Result := .next (s.setPair x (subNoBorrow (s.reg y) (s.reg x)))

/-- SHL Vx (R131): `V[x]` in place, the y field unused (D7). -/
def execShl (x : Reg) (s : State) : Result := .next (s.setPair x (shiftLeft (s.reg x)))

end Sys2Proof.Machine
end

