-- ==== Sys2Proof/Machine/Operands.lean ====
section
/-! DEFINITION. The operand forms (spec/30_encoding.md R71, R73; spec/20_memory.md R56). A register operand is `State.reg`, an
immediate byte is the field itself; the others are here. -/

namespace Sys2Proof.Machine

/-- The address immediate, zero-extended to 16 bits (R73). -/
def addrImm (nnn : Addr) : Word := nnn.setWidth 16

/-- The target of the jump with offset, nnn + `V[0]`, never reduced to 12 bits (spec/41_control_flow.md R104). -/
def offsetTarget (s : State) (nnn : Addr) : Word := addrImm nnn + (s.reg 0).setWidth 16

/-- The base of a data access, `I` as an unbounded integer (R55, R56). -/
def dataBase (s : State) : Nat := s.i.toNat

/-- A register as a key number, 0 to 15 (spec/46_input_timer.md R160, R161; the error is the spec's D12). -/
def keyIndex (s : State) (x : Reg) : Except DefinedError Reg :=
  if (s.reg x).toNat > 15 then .error (.keyIndexOutOfRange (s.reg x)) else .ok ((s.reg x).setWidth 4)

/-- The address of the glyph of a whole byte, 0x050 + 5·b (spec/44_random_index_memory.md R143). -/
def glyphAddr (b : Byte) : Word := BitVec.ofNat 16 (Config.fontBase + 5 * b.toNat)

/-- The decimal digits of a byte: hundreds, tens, ones (R144). -/
def bcdDigits (b : Byte) : List Byte :=
  [BitVec.ofNat 8 (b.toNat / 100), BitVec.ofNat 8 (b.toNat / 10 % 10), BitVec.ofNat 8 (b.toNat % 10)]

/-- The index after adding a register: 16 bits, wrapping modulo 65536 (R142). -/
def indexPlus (s : State) (x : Reg) : Word := BitVec.ofNat 16 ((s.i.toNat + (s.reg x).toNat) % 65536)

end Sys2Proof.Machine
end

