-- ==== Sys2Proof/Machine/ControlFlow.lean ====
section
/-! DEFINITION. Control flow (spec/41_control_flow.md). In every handler `pc` is the post-fetch pc. -/

namespace Sys2Proof.Machine

/-- CLS (R100). -/
def execCls (s : State) : Result := .next (s.setFrame Frame.blank)

/-- RET (R101). -/
def execRet (s : State) : Result := commit s (popPc s)

/-- JP nnn (R102). -/
def execJp (nnn : Addr) (s : State) : Result := .next (s.setPc (addrImm nnn))

/-- CALL nnn (R103). -/
def execCall (nnn : Addr) (s : State) : Result := commit s ((pushPc s).map (fun t => t.setPc (addrImm nnn)))

/-- JP V0, nnn (R104). -/
def execJpV0 (nnn : Addr) (s : State) : Result := .next (s.setPc (offsetTarget s nnn))

end Sys2Proof.Machine
end

