-- ==== Sys2Proof/Machine/IndexMemory.lean ====
section
/-! DEFINITION. Random, index and memory (spec/44_random_index_memory.md). -/

namespace Sys2Proof.Machine

/-- RND Vx, kk (R140): one fresh draw, masked. -/
def execRnd (x : Reg) (kk : Byte) (s : State) : Result := .next (s.draw.2.setReg x (s.draw.1 &&& kk))

/-- LD I, nnn (R141). -/
def execLdI (nnn : Addr) (s : State) : Result := .next (s.setI (addrImm nnn))

/-- ADD I, Vx (R142): `VF` untouched (D9). -/
def execAddI (x : Reg) (s : State) : Result := .next (s.setI (indexPlus s x))

/-- LD F, Vx (R143). -/
def execLdF (x : Reg) (s : State) : Result := .next (s.setI (glyphAddr (s.reg x)))

/-- LD B, Vx (R144): `I` unchanged (D10). -/
def execLdB (x : Reg) (s : State) : Result := commit s (writeBlock s (dataBase s) (bcdDigits (s.reg x)))

/-- LD [I], Vx (R145): `V[0]` to `V[x]` stored; `I` unchanged (D10). -/
def execStRegs (x : Reg) (s : State) : Result := commit s (writeBlock s (dataBase s) (s.regs (x.toNat + 1)))

/-- LD Vx, [I] (R146): `V[0]` to `V[x]` loaded; `I` unchanged (D10). -/
def execLdRegs (x : Reg) (s : State) : Result :=
  commit s ((readBlock s (dataBase s) (x.toNat + 1)).map (fun bs => s.setRegs 0 bs))

end Sys2Proof.Machine
end

