-- ==== Sys2Proof/Machine/Skip.lean ====
section
/-! DEFINITION. The comparison skips (spec/42_skip.md) and the skip all six skip instructions share (R114). -/

namespace Sys2Proof.Machine

/-- 2 more onto the post-fetch pc when the condition holds (R114). -/
def State.skipIf (s : State) (cond : Bool) : State := if cond then s.setPc (s.pc + 2) else s

/-- SE Vx, kk (R110). -/
def execSeKk (x : Reg) (kk : Byte) (s : State) : Result := .next (s.skipIf (s.reg x == kk))

/-- SNE Vx, kk (R111). -/
def execSneKk (x : Reg) (kk : Byte) (s : State) : Result := .next (s.skipIf (s.reg x != kk))

/-- SE Vx, Vy (R112). -/
def execSeVy (x y : Reg) (s : State) : Result := .next (s.skipIf (s.reg x == s.reg y))

/-- SNE Vx, Vy (R113). -/
def execSneVy (x y : Reg) (s : State) : Result := .next (s.skipIf (s.reg x != s.reg y))

end Sys2Proof.Machine
end

