-- ==== Sys2Proof/Machine/InputTimer.lean ====
section
/-! DEFINITION. Input and timers (spec/46_input_timer.md). The timer tick that follows each of them is the frame's. -/

namespace Sys2Proof.Machine

/-- SKP Vx (R160). -/
def execSkp (x : Reg) (s : State) : Result := commit s ((keyIndex s x).map (fun k => s.skipIf (s.key k)))

/-- SKNP Vx (R161). -/
def execSknp (x : Reg) (s : State) : Result := commit s ((keyIndex s x).map (fun k => s.skipIf (!s.key k)))

/-- LD Vx, DT (R163). -/
def execLdVxDt (x : Reg) (s : State) : Result := .next (s.setReg x s.dt)

/-- LD Vx, K (R162): with no key pressed, `pc` back to this instruction; else the lowest pressed key into `V[x]`. -/
def execLdVxK (x : Reg) (s : State) : Result :=
  match s.firstKey with
  | none => .next (s.setPc (s.pc - 2))
  | some k => .next (s.setReg x (k.setWidth 8))

/-- LD DT, Vx (R164). -/
def execLdDtVx (x : Reg) (s : State) : Result := .next (s.setDt (s.reg x))

/-- LD ST, Vx (R165). -/
def execLdStVx (x : Reg) (s : State) : Result := .next (s.setSt (s.reg x))

end Sys2Proof.Machine
end

