-- ==== Sys2Proof/Machine/Sprite.lean ====
section
/-! DEFINITION. Sprite rendering (spec/45_sprite.md R150 to R153). -/

namespace Sys2Proof.Machine

/-- The framebuffer being drawn on, and whether some pixel has gone from on to off. -/
abbrev Canvas := Frame × Bool

/-- The column of sprite column `col`: (x0 + col) mod 64 (R151). -/
def spriteColumn (x0 : Byte) (col : Nat) : Fin 64 := ⟨(x0.toNat + col) % 64, Nat.mod_lt _ (by decide)⟩

/-- The row of sprite row `row`: (y0 + row) mod 32 (R151). -/
def spriteRow (y0 : Byte) (row : Nat) : Fin 32 := ⟨(y0.toNat + row) % 32, Nat.mod_lt _ (by decide)⟩

/-- One sprite bit: a 1 inverts its pixel, and a pixel that was on is a collision; a 0 leaves it alone (R150). -/
def drawPixel (bit : Bool) (px : Fin 64) (py : Fin 32) (c : Canvas) : Canvas :=
  if bit then (Frame.toggle c.1 px py, c.2 || Frame.pixel c.1 px py) else c

/-- One sprite row: bit 7 is the leftmost pixel (R150). -/
def drawRow (x0 : Byte) (py : Fin 32) (b : Byte) (c : Canvas) : Canvas :=
  [0, 1, 2, 3, 4, 5, 6, 7].foldl (fun acc col => drawPixel (b.getLsbD (7 - col)) (spriteColumn x0 col) py acc) c

/-- The sprite rows from number `row` on. -/
def drawRows (x0 y0 : Byte) : Nat → List Byte → Canvas → Canvas
  | _, [], c => c
  | row, b :: bs, c => drawRows x0 y0 (row + 1) bs (drawRow x0 (spriteRow y0 row) b c)

/-- The whole sprite on a framebuffer, with the collision flag. -/
def drawSprite (x0 y0 : Byte) (rows : List Byte) (f : Frame) : Canvas := drawRows x0 y0 0 rows (f, false)

/-- The framebuffer and `VF` after a draw. -/
def State.setCanvas (s : State) (c : Canvas) : State := (s.setFrame c.1).setFlag c.2

/-- DRW Vx, Vy, n (R150): the origin is read before `VF` is written; `VF` is written also when n = 0 (R152). -/
def execDrw (x y : Reg) (n : Nibble) (s : State) : Result :=
  commit s ((readBlock s (dataBase s) n.toNat).map
    (fun rows => s.setCanvas (drawSprite (s.reg x) (s.reg y) rows s.frame)))

end Sys2Proof.Machine
end

