-- ==== Sys2Proof/Machine/Cycle.lean ====
section
/-! DEFINITION. From the fetched word to its handler (spec/40_step_cycle.md R94, R95), and how a word comes to stand where the
next Step fetches it. -/

namespace Sys2Proof.Machine

/-- NOP, the no-op handler of every unrecognised word (R95): it reads and writes nothing. -/
def execNop (s : State) : Result := .next s

/-- Decode and dispatch (R94): exactly one handler runs. -/
def runWord (w : Word) (s : State) : Result :=
  match decode w with
  | .ok i => exec i s
  | .error _ => execNop s

/-- The five stages of one Step on a machine whose latch is clear (R90, R98). -/
def cycle (s : State) : Result :=
  match fetch s with
  | .error e => .next (s.raise e)
  | .ok w => closeStep s (runWord w s.advance)

/-- The word `w` stored big-endian at `pc`, where the next Step fetches (R53, R92). -/
def State.pokeWord (s : State) (w : Word) : State :=
  { s with mem := (s.mem.write s.pc.toNat (Word.hi w)).write (s.pc.toNat + 1) (Word.lo w) }

end Sys2Proof.Machine
end

