-- ==== Sys2Proof/Machine/Step.lean ====
section
/-! DEFINITION. Step (spec/40_step_cycle.md R98). -/

namespace Sys2Proof.Machine

/-- One instruction cycle. With the latch set it is refused and reports the same error again (R91). -/
def step (s : State) : Host.Outcome State Fault Refusal :=
  match s.err with
  | some e => .fault (.latched e)
  | none => cycle s

/-- `s` with the table word `w` of `nbits` bits where the next Step fetches. The fetch also needs a clear latch and
`pc` ≤ 0xFFE, which hold at reset and are not changed here (log entry 10). -/
def State.withFetchWord (s : State) (nbits w : Nat) : State := s.pokeWord (BitVec.ofNat 16 (w % 2 ^ nbits))

end Sys2Proof.Machine
end

