-- ==== Sys2Proof/Machine/Transactions.lean ====
section
/-! DEFINITION. The five transactions of the host (spec/70_reset_and_hazards.md R190 to R194): Reset, Load, Step, key write,
framebuffer read. -/

namespace Sys2Proof.Machine

/-- Reset, from any state (R190). The random source does not begin again with the draws it has already given: its draws are not
reproducible from one reset to the next, so the count goes on (log entry 3). -/
def hostReset (s : State) : State := { State.reset with drawn := s.drawn }

/-- The effect of an accepted or rejected image (R191): byte i at 0x200 + i, or `LoadError` and nothing copied. -/
def loadImage (bytes : List Byte) (s : State) : Except DefinedError State :=
  if bytes.length > Config.maxImage then .error (.loadError bytes.length)
  else .ok { s with mem := s.mem.writeBytes Config.progBase bytes, loadOpen := false }

/-- Load (R191): refused with the latch set; without a meaning other than once, after Reset, before the first Step (R192). -/
def hostLoad (bytes : List Byte) (s : State) : Result :=
  match s.err with
  | some e => .fault (.latched e)
  | none => if s.loadOpen then commit s (loadImage bytes s) else .refused .loadOutsideContract

/-- Key write: `K[k] <- b` (R194). -/
def hostKey (k : Reg) (b : Bool) (s : State) : State := { s with keys := s.keys.set k.toNat b k.isLt }

/-- Framebuffer read: the 2048 pixels, `FB[x, y]` at linear index y·64 + x (R31, R194). -/
def hostFrame (s : State) : List Bool := s.frame.toList.flatMap (fun row => row.toList)

/-- What the host can do between Steps that changes the machine, and the framebuffer read, which does not. -/
inductive Transaction where
  | reset
  | load (bytes : List Byte)
  | step
  | keyWrite (k : Reg) (b : Bool)
  | frameRead
  deriving DecidableEq, Repr

/-- The effect of one transaction (R194). -/
def transact (t : Transaction) (s : State) : Result :=
  match t with
  | .reset => .next (hostReset s)
  | .load bytes => hostLoad bytes s
  | .step => Sys2Proof.Machine.step s
  | .keyWrite k b => .next (hostKey k b s)
  | .frameRead => .next s

end Sys2Proof.Machine
end

