-- ==== Sys2Proof/Safety.lean ====
section
/-! DEFINITION. The terms in which claims are stated: the invariant of the machine, running, faulted and parked states, the
states a host can reach, what a draw covers, what an encoding row means. -/

namespace Sys2Proof.Machine

/-- The invariant every transaction keeps: memory in canonical form, `pc` no larger than any rule can make it
(spec/10_state.md R26), and every stack entry a post-fetch pc, at most 0x1000 (R26; spec/41_control_flow.md R101). -/
structure Inv (s : State) : Prop where
  memWf : s.mem.wf = true
  pcBound : s.pc.toNat ≤ 0x10FE
  stackBound : ∀ k (h : k < 16), (s.stack[k]'h).toNat ≤ 0x1000

/-- A machine whose next Step fetches a word: the latch clear and both bytes inside memory (R91, R92). -/
structure CanFetch (s : State) : Prop where
  running : s.err = none
  inside : s.pc.toNat ≤ 0xFFE

/-- A run that has ended with an error; never a successful end (spec/60_exceptions.md R180). -/
def Faulted (s : State) : Prop := s.err ≠ none

/-- A safe run so far: no defined error. -/
def Safe (s : State) : Prop := s.err = none

/-- The host stands before a jump to itself at `a` (spec/70_reset_and_hazards.md R195). -/
structure Parked (a : Addr) (s : State) : Prop where
  running : s.err = none
  here : s.pc = addrImm a
  inside : a.toNat ≤ 0xFFE
  selfJump : s.mem.wordAt a.toNat = encode (.jp a)

/-- The states a host can bring the machine to from reset by its transactions (R194). -/
inductive Reachable : State → Prop where
  | reset : Reachable State.reset
  | next {s s' : State} (t : Transaction) : Reachable s → transact t s = .next s' → Reachable s'

/-- Some set bit of the `n` sprite rows at `I` falls on pixel (`px`, `py`) when the origin is (`V[x]`, `V[y]`)
(spec/45_sprite.md R150, R151). -/
def SpriteCovers (s : State) (x y : Reg) (n : Nat) (px : Fin 64) (py : Fin 32) : Prop :=
  ∃ row col : Nat, row < n ∧ col < 8 ∧ (s.mem.read (s.i.toNat + row)).getLsbD (7 - col) = true ∧
    px.val = ((s.reg x).toNat + col) % 64 ∧ py.val = ((s.reg y).toNat + row) % 32

/-- Every data address of an access of `n` bytes at `I` lies inside memory (spec/20_memory.md R56). -/
def AccessFits (s : State) (n : Nat) : Prop := n = 0 ∨ s.i.toNat + n ≤ 0x1000

/-- The registers an instruction may write (spec/10_state.md R22 and the table of its section 1): its destination, `VF` for the
six that write the flag, `V[0]` to `V[x]` for the block load. -/
def Writes (i : Instr) (r : Reg) : Prop :=
  match i with
  | .ldKk x _ => r = x
  | .addKk x _ => r = x
  | .ldVy x _ => r = x
  | .orVy x _ => r = x
  | .andVy x _ => r = x
  | .xorVy x _ => r = x
  | .addVy x _ => r = x ∨ r = 0xF
  | .subVy x _ => r = x ∨ r = 0xF
  | .shr x _ => r = x ∨ r = 0xF
  | .subnVy x _ => r = x ∨ r = 0xF
  | .shl x _ => r = x ∨ r = 0xF
  | .rnd x _ => r = x
  | .drw _ _ _ => r = 0xF
  | .ldVxDt x => r = x
  | .ldVxK x => r = x
  | .ldRegs x => r.toNat ≤ x.toNat
  | .cls _ => False
  | .ret _ => False
  | .jp _ => False
  | .call _ => False
  | .seKk _ _ => False
  | .sneKk _ _ => False
  | .seVy _ _ _ => False
  | .sneVy _ _ _ => False
  | .ldI _ => False
  | .jpV0 _ => False
  | .skp _ _ => False
  | .sknp _ _ => False
  | .ldDtVx _ => False
  | .ldStVx _ => False
  | .addI _ => False
  | .ldF _ => False
  | .ldB _ => False
  | .stRegs _ => False

/-- For the six skip instructions, whether the condition holds; none for every other instruction, and for a key skip whose
register is no key number (spec/42_skip.md R110 to R114; spec/46_input_timer.md R160, R161). -/
def skipTaken (s : State) (i : Instr) : Option Bool :=
  match i with
  | .seKk x kk => some (s.reg x == kk)
  | .sneKk x kk => some (s.reg x != kk)
  | .seVy x y _ => some (s.reg x == s.reg y)
  | .sneVy x y _ => some (s.reg x != s.reg y)
  | .skp x _ => if (s.reg x).toNat ≤ 15 then some (s.key ((s.reg x).setWidth 4)) else none
  | .sknp x _ => if (s.reg x).toNat ≤ 15 then some (!s.key ((s.reg x).setWidth 4)) else none
  | .cls _ => none
  | .ret _ => none
  | .jp _ => none
  | .call _ => none
  | .ldKk _ _ => none
  | .addKk _ _ => none
  | .ldVy _ _ => none
  | .orVy _ _ => none
  | .andVy _ _ => none
  | .xorVy _ _ => none
  | .addVy _ _ => none
  | .subVy _ _ => none
  | .shr _ _ => none
  | .subnVy _ _ => none
  | .shl _ _ => none
  | .ldI _ => none
  | .jpV0 _ => none
  | .rnd _ _ => none
  | .drw _ _ _ => none
  | .ldVxDt _ => none
  | .ldVxK _ => none
  | .ldDtVx _ => none
  | .ldStVx _ => none
  | .addI _ => none
  | .ldF _ => none
  | .ldB _ => none
  | .stRegs _ => none
  | .ldRegs _ => none

/-- The word the next Step fetches (spec/40_step_cycle.md R92), spelled out: the byte at `pc` is the high one. -/
def nextWord (s : State) : Word := Word.ofBytes (s.mem.read s.pc.toNat) (s.mem.read (s.pc.toNat + 1))

/-- What R25's table (spec/10_state.md) says of `pc` in the state `t` that a Step of `i` makes of `s`, when it completes; for a
call also that the post-fetch pc is pushed. -/
def PcAfter (s t : State) (i : Instr) : Prop :=
  match i with
  | .jp nnn => t.pc.toNat = nnn.toNat
  | .call nnn => t.pc.toNat = nnn.toNat ∧ ∃ u, pushPc { s with pc := s.pc + 2 } = .ok u ∧ t.stack = u.stack ∧ t.sp = u.sp
  | .jpV0 nnn => t.pc.toNat = nnn.toNat + (s.reg 0).toNat
  | .ret _ => ∃ u, popPc s = .ok u ∧ t.pc = u.pc
  | .ldVxK _ => ((∀ k, s.key k = false) → t.pc.toNat = s.pc.toNat) ∧
    ((∃ k, s.key k = true) → t.pc.toNat = s.pc.toNat + 2)
  | .seKk _ _ | .sneKk _ _ | .seVy _ _ _ | .sneVy _ _ _ | .skp _ _ | .sknp _ _ =>
    t.pc.toNat = s.pc.toNat + (if skipTaken s i = some true then 4 else 2)
  | .cls _ | .ldKk _ _ | .addKk _ _ | .ldVy _ _ | .orVy _ _ | .andVy _ _ | .xorVy _ _ | .addVy _ _ | .subVy _ _ | .shr _ _
  | .subnVy _ _ | .shl _ _ | .ldI _ | .rnd _ _ | .drw _ _ _ | .ldVxDt _ | .ldDtVx _ | .ldStVx _ | .addI _ | .ldF _ | .ldB _
  | .stRegs _ | .ldRegs _ => t.pc.toNat = s.pc.toNat + 2

/-- The bytes an instruction stores, from `I` on: the digits of Fx33, the registers of Fx55 (spec/44_random_index_memory.md R144,
R145). -/
def storedBytes (s : State) (i : Instr) : List Byte :=
  match i with
  | .ldB x => bcdDigits (s.reg x)
  | .stRegs x => s.regs (x.toNat + 1)
  | .cls _ | .ret _ | .jp _ | .call _ | .seKk _ _ | .sneKk _ _ | .seVy _ _ _ | .ldKk _ _ | .addKk _ _ | .ldVy _ _ | .orVy _ _
  | .andVy _ _ | .xorVy _ _ | .addVy _ _ | .subVy _ _ | .shr _ _ | .subnVy _ _ | .shl _ _ | .sneVy _ _ _ | .ldI _ | .jpV0 _
  | .rnd _ _ | .drw _ _ _ | .skp _ _ | .sknp _ _ | .ldVxDt _ | .ldVxK _ | .ldDtVx _ | .ldStVx _ | .addI _ | .ldF _
  | .ldRegs _ => []

/-- The byte at `a` after an instruction that raises nothing: the one it stored there, else the one before. -/
def byteAfter (s : State) (i : Instr) (a : Nat) : Byte :=
  if dataBase s ≤ a ∧ a < dataBase s + (storedBytes s i).length then (storedBytes s i).getD (a - dataBase s) 0
  else s.mem.read a

/-- Two states that differ at most in stack entries no longer in use (spec/10_state.md R28). -/
def AgreeBelowSp (s s' : State) : Prop :=
  s' = { s with stack := s'.stack } ∧ ∀ k (h : k < 16), k < s.sp.val → s'.stack[k]'h = s.stack[k]'h

/-- The row (`mask`, `mtch`) of the opcode map is the instruction `build` makes from the word's fields: the words that
select the row, and no others, decode to it (spec/30_encoding.md R76). -/
def Encodes (mask mtch : Word) (build : Word → Instr) : Prop :=
  ∀ w : Word, decode w = .ok (build w) ↔ w &&& mask = mtch

/-- The words of R78: class 0x0 with a low nibble other than 0 and 0xE, class 0x8 with a low nibble 8 to 0xD or 0xF, class 0xE
with a low nibble other than 1 and 0xE, class 0xF with a low byte of no row. -/
def Unrecognised (w : Word) : Prop :=
  (Word.cls w = 0x0 ∧ Word.n w ∉ [0x0#4, 0xE#4]) ∨
  (Word.cls w = 0x8 ∧ Word.n w ∈ [0x8#4, 0x9#4, 0xA#4, 0xB#4, 0xC#4, 0xD#4, 0xF#4]) ∨
  (Word.cls w = 0xE ∧ Word.n w ∉ [0x1#4, 0xE#4]) ∨
  (Word.cls w = 0xF ∧
    Word.kk w ∉ [0x07#8, 0x0A#8, 0x15#8, 0x18#8, 0x1E#8, 0x29#8, 0x33#8, 0x55#8, 0x65#8])

end Sys2Proof.Machine
end

