-- ==== Sys2Proof/Certificates/Slice0/Obligations.lean ====
section
/-! DEFINITION. The statements for the provers. Each docstring names the rule of spec/ it formalises; where a clause rests on a
decision the spec marks as its own (D<n> of spec/92_eei_decisions.md) or on a log entry, it says so. -/

open Sys2Proof Sys2Proof.Machine

/-! ### Encoding -/

/-- Words written out from the spec's encodings, one or more a family (spec/30_encoding.md R76, R77; vectors E1 to E20 of
spec/95_test_vectors.md). The numbers are the spec's D3 (log entry 6); that 0x0000 is CLS, 0x5127 SE and 0xE031 SKNP, words that
differ from the canonical ones in bits the decoder does not read, is its D2 (log entry 7). -/
def Obligations.DecodeReadsTheSpecsWords : Prop :=
  decode 0b0000000011100000#16 = .ok (.cls 0b00001110#8) ∧ decode 0b0000000000000000#16 = .ok (.cls 0#8) ∧
  decode 0b0000000011101110#16 = .ok (.ret 0b00001110#8) ∧ decode 0b0010010000000000#16 = .ok (.call 0x400#12) ∧
  decode 0b0101000100100111#16 = .ok (.seVy 0x1#4 0x2#4 0x7#4) ∧
  decode 0b1000010101100100#16 = .ok (.addVy 0x5#4 0x6#4) ∧ decode 0b1000000100101110#16 = .ok (.shl 0x1#4 0x2#4) ∧
  decode 0b1111000101100101#16 = .ok (.ldRegs 0x1#4) ∧ decode 0b1101000000010010#16 = .ok (.drw 0x0#4 0x1#4 0x2#4) ∧
  decode 0b1110000000110001#16 = .ok (.sknp 0x0#4 0x3#4) ∧ decode 0b1111001100001010#16 = .ok (.ldVxK 0x3#4) ∧
  decode 0b1000000000001000#16 = .error (.class8 0x8#4) ∧ decode 0b1111000001110101#16 = .error (.classF 0x75#8)

/-- Every instruction, with every operand and every unread bit at every value, decodes from its own word, and from its own
bytes whatever follows them (spec/30_encoding.md R70 to R76). That the unread bits may have every value is the spec's D2, that
they are carried in `ign` the model's own choice (log entry 7). -/
def Obligations.DecodeOfEncode : Prop :=
  (∀ i : Instr, decode (encode i) = .ok i) ∧
  (∀ (i : Instr) (rest : List Byte), decodeBytes (encodeBytes i ++ rest) = .ok (i, rest))

/-- No word has two readings and no bit of a word is dropped: what decodes to an instruction is that instruction's word
(spec/30_encoding.md R71, R72). For 00E0, 00EE, 5xy0, 9xy0, Ex9E and ExA1 this rests on the model's own choice to carry the bits
the decoder does not read in `ign` (log entry 7; that words with any such bits are the instruction is the spec's D2): R72 calls
those bits ignored and does not ask that they be kept. -/
def Obligations.EncodeOfDecode : Prop :=
  ∀ (w : Word) (i : Instr), decode w = .ok i → encode i = w

/-- The decoder is the opcode map of spec/30_encoding.md R76: an instruction's word selects its own row and no other, and a
word that decodes to nothing selects no row. The numbers are the spec's D3 (log entry 6), the masks, which leave bits unread, its
D2 (log entry 7). -/
def Obligations.DecodeFollowsTheOpcodeMap : Prop :=
  (∀ (w : Word) (i : Instr), decode w = .ok i →
    ∀ row ∈ opcodeMap, (row.selects w = true ↔ row.mnemonic = i.mnemonic)) ∧
  (∀ (w : Word) (e : Reject), decode w = .error e → ∀ row ∈ opcodeMap, row.selects w = false)

/-- The unrecognised words are exactly the (class, sub-key) pairs listed in spec/30_encoding.md R78 (numbers: the spec's D3,
log entry 6; that no other bit is looked at: its D2, log entry 7). -/
def Obligations.UnrecognisedWordsAreTheListedOnes : Prop :=
  ∀ w : Word, (∃ e, decode w = .error e) ↔ Unrecognised w

/-- A word that differs from a canonical word only in bits the decoder does not read does the same to every state
(spec/30_encoding.md R77, the spec's D2, log entry 7). -/
def Obligations.AliasesRunAsTheCanonicalWord : Prop :=
  ∀ (s : State) (ab : Byte) (x y b : Nibble),
    runWord (0x0#4 ++ ab ++ 0x0#4) s = runWord 0x00E0#16 s ∧
    runWord (0x0#4 ++ ab ++ 0xE#4) s = runWord 0x00EE#16 s ∧
    runWord (0x5#4 ++ x ++ y ++ b) s = runWord (0x5#4 ++ x ++ y ++ 0x0#4) s ∧
    runWord (0x9#4 ++ x ++ y ++ b) s = runWord (0x9#4 ++ x ++ y ++ 0x0#4) s ∧
    runWord (0xE#4 ++ x ++ b ++ 0xE#4) s = runWord (0xE#4 ++ x ++ 0x9#4 ++ 0xE#4) s ∧
    runWord (0xE#4 ++ x ++ b ++ 0x1#4) s = runWord (0xE#4 ++ x ++ 0xA#4 ++ 0x1#4) s

/-! ### The Step around the handler -/

/-- Step runs the decoded instruction on the state with `pc` advanced by 2; then the timers tick, or, if the handler raised,
nothing is kept but the error (spec/40_step_cycle.md R92 to R98; keeping nothing is the spec's D16, log entry 1). No form and no
well-formedness is assumed. `loadOpen` is the model's own field (log entry 10). -/
def Obligations.StepRunsTheDecodedInstruction : Prop :=
  ∀ (s : State) (i : Instr), CanFetch s → decode (nextWord s) = .ok i →
    step s = closeStep s (exec i { s with pc := s.pc + 2 }) ∧
    (∀ t, exec i { s with pc := s.pc + 2 } = .next t → t.err = none →
      step s = .next { t with dt := tickDown t.dt, st := tickDown t.st, loadOpen := false }) ∧
    (∀ t e, exec i { s with pc := s.pc + 2 } = .next t → t.err = some e → step s = .next { s with err := some e })

/-- The no-op (spec/40_step_cycle.md R95): a word that no row of the opcode map matches costs one Step, in which only `pc` and the
timers change; the word 0x0000 is not such a word but CLS. The numbers of the map are the spec's D3 (log entry 6), the reading of
0x0000 its D2 (log entry 7); `loadOpen` is the model's own field (log entry 10). -/
def Obligations.UnrecognisedWordIsANoOp : Prop :=
  (∀ s : State, CanFetch s → (∀ row ∈ opcodeMap, row.selects (nextWord s) = false) →
    step s = .next { s with pc := s.pc + 2, dt := tickDown s.dt, st := tickDown s.st, loadOpen := false }) ∧
  (∃ row ∈ opcodeMap, row.mnemonic = "CLS" ∧ row.selects 0x0000#16 = true)

/-- Once an error is latched, Step and Load are refused, change nothing and report the same error (spec/40_step_cycle.md R91 and
spec/60_exceptions.md R180, the spec's D16); that the refusal is the outcome `fault` is the model's choice (log entry 1). -/
def Obligations.LatchedErrorRefusesStepAndLoad : Prop :=
  ∀ (s : State) (e : DefinedError) (bytes : List Byte), s.err = some e →
    step s = .fault (.latched e) ∧ transact .step s = .fault (.latched e) ∧ hostLoad bytes s = .fault (.latched e)

/-- The fetch bound (spec/40_step_cycle.md R92, spec/60_exceptions.md R171): a Step with `pc` > 0xFFE raises FetchOutOfBounds
with `pc`, changing nothing else, and one with `pc` ≤ 0xFFE never does. The exact bound is the spec's D20 (log entry 20);
that raising is a next state with the latch set and all else kept is its D16 (log entry 1). -/
def Obligations.FetchBoundIsBothBytes : Prop :=
  ∀ s : State, s.err = none →
    (0xFFE < s.pc.toNat → step s = .next { s with err := some (.fetchOutOfBounds s.pc) }) ∧
    (s.pc.toNat ≤ 0xFFE → ∀ t a, step s = .next t → t.err ≠ some (.fetchOutOfBounds a))

/-- R53: the fetch is big-endian, and a loaded image is read in the same order. -/
def Obligations.FetchAndImageAreBigEndian : Prop :=
  (∀ s : State, s.pc.toNat ≤ 0xFFE →
    ∃ w, fetch s = .ok w ∧
      w.toNat = (s.mem.read s.pc.toNat).toNat * 256 + (s.mem.read (s.pc.toNat + 1)).toNat) ∧
  (∀ (s t : State) (bytes : List Byte) (j : Nat) (h : 2 * j + 1 < bytes.length), s.mem.wf = true → t.err = none →
    hostLoad bytes s = .next t →
    ∃ w, fetch { t with pc := BitVec.ofNat 16 (0x200 + 2 * j) } = .ok w ∧
      w.toNat = (bytes[2 * j]'(by omega)).toNat * 256 + (bytes[2 * j + 1]'h).toNat)

/-- The timers tick once in every Step that completes, after the handler, acting on the value it left
(spec/40_step_cycle.md R96; which Steps tick is the spec's D23, log entry 21); only Fx15 and Fx18 put another value there. -/
def Obligations.TimersTickInEveryCompletedStep : Prop :=
  (∀ b : Byte, (tickDown b).toNat = b.toNat - 1) ∧
  (∀ s t : State, CanFetch s → step s = .next t → t.err = none →
    t.dt = tickDown (match decode (nextWord s) with | .ok (.ldDtVx x) => s.reg x | _ => s.dt) ∧
    t.st = tickDown (match decode (nextWord s) with | .ok (.ldStVx x) => s.reg x | _ => s.st))

/-- Errors are precise and atomic (spec/40_step_cycle.md R97, spec/60_exceptions.md R179, the spec's D16): a handler that raises
has changed nothing, and a Step that raises leaves the state before it with the error latched. -/
def Obligations.FaultingStepKeepsNothing : Prop :=
  (∀ (i : Instr) (s t : State) (e : DefinedError), s.err = none → exec i s = .next t → t.err = some e →
    t = { s with err := some e }) ∧
  (∀ (s t : State) (e : DefinedError), s.err = none → step s = .next t → t.err = some e →
    t = { s with err := some e })

/-- Every handler and every Step on a machine whose latch is clear ends in a next state: nothing is left without a meaning and
no word stops the machine (spec/40_step_cycle.md R90, R99; spec/60_exceptions.md R177). That a defined error is such a state too is
the spec's D16 and the model's choice (log entry 1). -/
def Obligations.EveryStepAnswers : Prop :=
  (∀ (i : Instr) (s : State), ∃ t, exec i s = .next t) ∧ (∀ s : State, s.err = none → ∃ t, step s = .next t)

/-- Which handler raises what, and only when (spec/60_exceptions.md R170, R172 to R175, R178). The names and the recorded
information are the spec's D26, the reported address its D29, the key error its D12 (log entries 16, 25); that an address is not
wrapped is its D11 (log entry 19), the latch that holds the error its D16 (log entry 1). -/
def Obligations.OnlyTheseHandlersRaise : Prop :=
  ∀ (i : Instr) (s t : State) (e : DefinedError), s.err = none → exec i s = .next t → t.err = some e →
    (∃ nnn, i = .call nnn ∧ s.sp.val = 16 ∧ e = .stackOverflow) ∨
    (∃ ign, i = .ret ign ∧ s.sp.val = 0 ∧ e = .stackUnderflow) ∨
    (∃ x ign, (i = .skp x ign ∨ i = .sknp x ign) ∧ 15 < (s.reg x).toNat ∧ e = .keyIndexOutOfRange (s.reg x)) ∨
    (∃ x y n, i = .drw x y n ∧ ¬ AccessFits s n.toNat ∧ e = .memoryOutOfBounds (max s.i.toNat 0x1000)) ∨
    (∃ x, i = .ldB x ∧ ¬ AccessFits s 3 ∧ e = .memoryOutOfBounds (max s.i.toNat 0x1000)) ∨
    (∃ x, (i = .stRegs x ∨ i = .ldRegs x) ∧ ¬ AccessFits s (x.toNat + 1) ∧
      e = .memoryOutOfBounds (max s.i.toNat 0x1000))

/-! ### Invariants -/

/-- Every Step keeps the invariant (the memory form is the model's, log entry 9; the bounds are spec/10_state.md R26). -/
def Obligations.StepKeepsTheInvariant : Prop :=
  ∀ s s' : State, Inv s → step s = .next s' → Inv s'

/-- The invariant holds at reset. -/
def Obligations.ResetSatisfiesTheInvariant : Prop := Inv State.reset

/-- Every transaction of the host keeps the invariant, so every state a host can reach has it, and in every such state the
additions to `pc` inside a Step do not wrap (spec/10_state.md R26, spec/70_reset_and_hazards.md R194). -/
def Obligations.ReachableStatesSatisfyTheInvariant : Prop :=
  (∀ (tr : Transaction) (s s' : State), Inv s → transact tr s = .next s' → Inv s') ∧
  (∀ s : State, Reachable s → Inv s ∧ (s.pc + 4).toNat = s.pc.toNat + 4)

/-- Memories in canonical form that read the same at every address are the same data (log entry 9). -/
def Obligations.CanonicalMemoriesAreDeterminedByReads : Prop :=
  ∀ m m' : Memory, m.wf = true → m'.wf = true → (∀ a, a < 4096 → m.read a = m'.read a) → m = m'

/-- The accesses of spec/20_memory.md R55 are checked against 0xFFF on the address as an unbounded number and never wrap: that
is the spec's D11 (log entry 19). The two-byte access of the fetch is the two one-byte accesses, its bound checked first by the
fetch, which raises FetchOutOfBounds instead (spec/40_step_cycle.md R92; the bound 0xFFE is the spec's D20, log entry 20). -/
def Obligations.MemoryAccessesAreBoundedNotWrapped : Prop :=
  (∀ (s : State) (a : Nat),
    (a > 0xFFF → memRead s a = .error (.memoryOutOfBounds a)) ∧ (a ≤ 0xFFF → memRead s a = .ok (s.mem.read a))) ∧
  (∀ (s : State) (a : Nat) (b : Byte), s.mem.wf = true →
    (a > 0xFFF → memWrite s a b = .error (.memoryOutOfBounds a)) ∧
    (a ≤ 0xFFF → ∃ t, memWrite s a b = .ok t ∧ t = { s with mem := t.mem } ∧
      ∀ k, t.mem.read k = if k = a then b else s.mem.read k)) ∧
  (∀ s : State, (s.pc.toNat > 0xFFE → fetch s = .error (.fetchOutOfBounds s.pc)) ∧
    (s.pc.toNat ≤ 0xFFE → ∃ w hi lo, fetch s = .ok w ∧ memRead s s.pc.toNat = .ok hi ∧
      memRead s (s.pc.toNat + 1) = .ok lo ∧ w.toNat = hi.toNat * 256 + lo.toNat))

/-! ### Reset, Load and the host -/

/-- The state after reset (spec/10_state.md R36, spec/20_memory.md R51, R52), the constant `State.reset` and the state the
transaction Reset makes of any state whatever, a latched one too (spec/70_reset_and_hazards.md R190, R194). The values of `I`,
`sp`, `DT`, `ST`, `FB`, `K` are the spec's D17 and that of `ERR` its D16 (log entries 5, 1); the font bytes are its D4 (log entry 8);
that Reset opens Load and keeps the count of draws is the model's (log entries 10, 3). -/
def Obligations.ResetLeavesTheStatedValues : Prop :=
  (∀ s, ∃ m, transact .reset s = .next m ∧ m.drawn = s.drawn) ∧
  ∀ m, (m = State.reset ∨ ∃ s, transact .reset s = .next m) →
    (∀ r, m.reg r = 0) ∧ m.i = 0 ∧ m.pc = 0x200 ∧ (∀ k (h : k < 16), m.stack[k]'h = 0) ∧ m.sp.val = 0 ∧
    m.dt = 0 ∧ m.st = 0 ∧ (∀ k, m.key k = false) ∧ (∀ px py, m.frame.pixel px py = false) ∧ m.err = none ∧
    m.loadOpen = true ∧ m.mem.wf = true ∧ (∀ a, a < 0x50 ∨ 0xA0 ≤ a → m.mem.read a = 0) ∧
    ((List.range 80).map (fun k => m.mem.read (0x50 + k)) = fontBytes) ∧
    ((List.range 5).map (fun k => m.mem.read (0x50 + 5 * 0xA + k)) = [0xF0, 0x90, 0xF0, 0x90, 0x90])

/-- Load (spec/70_reset_and_hazards.md R191) places byte i of the image at 0x200 + i and changes nothing else; an image of more
than 3584 bytes is rejected whole; with the latch set it is refused, which the model says with the outcome `fault` (log entry 1).
That it needs `loadOpen` is R192, the spec's D21 (log entry 10). -/
def Obligations.LoadPlacesTheImage : Prop :=
  ∀ (s : State) (bytes : List Byte),
    (∀ e, s.err = some e → hostLoad bytes s = .fault (.latched e)) ∧
    (s.err = none → s.loadOpen = true → 3584 < bytes.length →
      hostLoad bytes s = .next { s with err := some (.loadError bytes.length) }) ∧
    (s.err = none → s.loadOpen = true → s.mem.wf = true → bytes.length ≤ 3584 →
      ∃ t, hostLoad bytes s = .next t ∧ t = { s with mem := t.mem, loadOpen := false } ∧
        ∀ a, t.mem.read a =
          if 0x200 ≤ a ∧ a < 0x200 + bytes.length then bytes.getD (a - 0x200) 0 else s.mem.read a)

/-- Load has a meaning once, after Reset, before the first Step (spec/70_reset_and_hazards.md R192, the spec's D21; the flag is
the model's, log entry 10). That Reset clears the latch is R190 and the spec's D16 (log entry 1). -/
def Obligations.LoadOutsideTheContractIsRefused : Prop :=
  (∀ (s : State) (bytes : List Byte), s.err = none → s.loadOpen = false →
    hostLoad bytes s = .refused .loadOutsideContract) ∧
  (∀ s t : State, step s = .next t → t.err = none → t.loadOpen = false) ∧
  (∀ (s t : State) (bytes : List Byte), hostLoad bytes s = .next t → t.err = none → t.loadOpen = false) ∧
  (∀ s : State, (hostReset s).loadOpen = true ∧ (hostReset s).err = none)

/-- The host writes one key and nothing else, and reads the 2048 pixels at linear index y·64 + x (spec/10_state.md R30, R31,
spec/70_reset_and_hazards.md R194; the index is the spec's D22, log entry 26). -/
def Obligations.HostWritesKeysAndReadsPixels : Prop :=
  (∀ (s : State) (k j : Reg) (b : Bool), (hostKey k b s).key j = if j = k then b else s.key j) ∧
  (∀ (s : State) (k : Reg) (b : Bool), hostKey k b s = { s with keys := (hostKey k b s).keys }) ∧
  (∀ s : State, (hostFrame s).length = 2048) ∧
  (∀ (s : State) (px : Fin 64) (py : Fin 32), (hostFrame s)[py.val * 64 + px.val]? = some (s.frame.pixel px py))

/-! ### Frames of all instructions -/

/-- Which instruction may change which state (the table of spec/10_state.md section 1; R24, R25, R28 to R31): everything not
named for an instruction is unchanged by it. That `I` is not changed by Fx33, Fx55, Fx65 and Dxyn is the spec's D10 (log entry
15). -/
def Obligations.StateIsWrittenOnlyByItsWriters : Prop :=
  ∀ (i : Instr) (s t : State), exec i s = .next t →
    t.keys = s.keys ∧ t.loadOpen = s.loadOpen ∧
    (t.stack = s.stack ∨ ∃ nnn, i = .call nnn) ∧
    (t.sp = s.sp ∨ (∃ nnn, i = .call nnn) ∨ ∃ ign, i = .ret ign) ∧
    (t.i = s.i ∨ (∃ nnn, i = .ldI nnn) ∨ (∃ x, i = .addI x) ∨ ∃ x, i = .ldF x) ∧
    (t.dt = s.dt ∨ ∃ x, i = .ldDtVx x) ∧ (t.st = s.st ∨ ∃ x, i = .ldStVx x) ∧
    (t.frame = s.frame ∨ (∃ ign, i = .cls ign) ∨ ∃ x y n, i = .drw x y n) ∧
    (t.mem = s.mem ∨ (∃ x, i = .ldB x) ∨ ∃ x, i = .stRegs x) ∧
    (t.drawn = s.drawn ∨ ∃ x kk, i = .rnd x kk) ∧
    (t.pc = s.pc ∨ (∃ nnn, i = .jp nnn ∨ i = .call nnn ∨ i = .jpV0 nnn) ∨ (∃ ign, i = .ret ign) ∨
      (skipTaken s i = some true ∧ t.pc = s.pc + 2) ∨ ∃ x, i = .ldVxK x ∧ t.pc = s.pc - 2)

/-- Every register an instruction does not write is unchanged, `VF` among them (spec/10_state.md R22; that 7xkk, 8xy0 to 8xy3 and
Fx1E leave `VF` alone is the spec's D5, D6, D9, log entries 11, 14). -/
def Obligations.OtherRegistersAreUnchanged : Prop :=
  ∀ (i : Instr) (s t : State) (r : Reg), exec i s = .next t → ¬ Writes i r → t.reg r = s.reg r

/-- No instruction reads the sound timer (spec/46_input_timer.md R165, spec/10_state.md R29): whatever it holds, every
instruction does the same to everything else, and only Fx18 replaces it. The two runs compared draw the same random byte, since
the model's draw is a function of `drawn`, which they share (log entry 3, unsafe for claims about two runs: the hardware's draws
need not agree). -/
def Obligations.SoundTimerIsNeverRead : Prop :=
  (∀ (i : Instr) (s t : State) (b : Byte), (∀ x, i ≠ .ldStVx x) → exec i s = .next t →
    exec i { s with st := b } = .next { t with st := b }) ∧
  (∀ (x : Reg) (s : State) (b : Byte), exec (.ldStVx x) { s with st := b } = exec (.ldStVx x) s)

/-- Stack entries at `sp` and above are unobservable (spec/10_state.md R28; the stack's discipline is the spec's D18, log entry
24): two machines that differ only there answer each Step alike and then differ only there again. The two runs compared draw the
same random bytes, since the model's draw is a function of `drawn`, which they share (log entry 3, unsafe for claims about two
runs: the hardware's draws need not agree). -/
def Obligations.PoppedEntriesAreUnobservable : Prop :=
  ∀ s s' : State, AgreeBelowSp s s' →
    (∀ t, step s = .next t → ∃ t', step s' = .next t' ∧ AgreeBelowSp t t') ∧
    (∀ f, step s = .fault f → step s' = .fault f)

/-! ### Control flow -/

/-- CLS (spec/41_control_flow.md R100). That every word 0x0ab0, whatever the unread `ign`, is CLS is the spec's D2 (log entry
7).
The numbers in `Encodes` are the spec's D3 (log entry 6). -/
def Obligations.ClsTurnsEveryPixelOff : Prop :=
  Encodes 0xF00F 0x0000 (fun w => .cls (Word.mid w)) ∧
  ∀ (ign : Byte) (s : State), ∃ t, exec (.cls ign) s = .next t ∧ t = { s with frame := t.frame } ∧
    ∀ px py, t.frame.pixel px py = false

/-- RET (spec/41_control_flow.md R101; the order of decrement and read is the spec's D18, log entry 24). That every word 0x0abE,
whatever the unread `ign`, is RET is its D2 (log entry 7); that the error is a next state with the latch set and all else kept is
its D16 (log entry 1).
The numbers in `Encodes` are the spec's D3 (log entry 6). -/
def Obligations.RetPopsTheSavedPc : Prop :=
  Encodes 0xF00F 0x000E (fun w => .ret (Word.mid w)) ∧
  ∀ (ign : Byte) (s : State),
    (s.sp.val = 0 → exec (.ret ign) s = .next { s with err := some .stackUnderflow }) ∧
    (∀ h : 0 < s.sp.val, ∃ t, exec (.ret ign) s = .next t ∧ t = { s with sp := t.sp, pc := t.pc } ∧
      t.sp.val = s.sp.val - 1 ∧ t.pc = s.stack[s.sp.val - 1]'(by omega))

/-- JP nnn (spec/41_control_flow.md R102).
The numbers in `Encodes` are the spec's D3 (log entry 6). -/
def Obligations.JpSetsPc : Prop :=
  Encodes 0xF000 0x1000 (fun w => .jp (Word.nnn w)) ∧
  ∀ (nnn : Addr) (s : State), ∃ t, exec (.jp nnn) s = .next t ∧ t = { s with pc := t.pc } ∧
    t.pc.toNat = nnn.toNat

/-- CALL (spec/41_control_flow.md R103; the order of store and increment is the spec's D18, log entry 24). That the error is a
next state with the latch set and all else kept is its D16 (log entry 1).
The numbers in `Encodes` are the spec's D3 (log entry 6). -/
def Obligations.CallPushesThePostFetchPc : Prop :=
  Encodes 0xF000 0x2000 (fun w => .call (Word.nnn w)) ∧
  ∀ (nnn : Addr) (s : State),
    (s.sp.val = 16 → exec (.call nnn) s = .next { s with err := some .stackOverflow }) ∧
    (s.sp.val < 16 → ∃ t, exec (.call nnn) s = .next t ∧ t = { s with stack := t.stack, sp := t.sp, pc := t.pc } ∧
      t.pc.toNat = nnn.toNat ∧ t.sp.val = s.sp.val + 1 ∧
      ∀ k (h : k < 16), t.stack[k]'h = if k = s.sp.val then s.pc else s.stack[k]'h)

/-- A return after a call comes back to the instruction after the call, wherever the subroutine left `pc`
(spec/41_control_flow.md R101, R103; spec/95_test_vectors.md L1.8). The stack's discipline is the spec's D18 (log entry 24), the
unread `ign` its D2 (log entry 7). -/
def Obligations.ReturnComesBackAfterTheCall : Prop :=
  ∀ (nnn : Addr) (ign : Byte) (s t : State) (a : Word), s.sp.val < 16 → exec (.call nnn) s = .next t →
    ∃ u, exec (.ret ign) { t with pc := a } = .next u ∧ u.pc = s.pc ∧ u.sp = s.sp ∧
      ∀ k (h : k < 16), k < s.sp.val → u.stack[k]'h = s.stack[k]'h

/-- JP V0, nnn (spec/41_control_flow.md R104).
The numbers in `Encodes` are the spec's D3 (log entry 6). -/
def Obligations.JpV0AddsRegisterZero : Prop :=
  Encodes 0xF000 0xB000 (fun w => .jpV0 (Word.nnn w)) ∧
  ∀ (nnn : Addr) (s : State), ∃ t, exec (.jpV0 nnn) s = .next t ∧ t = { s with pc := t.pc } ∧
    t.pc.toNat = nnn.toNat + (s.reg 0).toNat

/-- A machine parked at a jump to itself changes only its timers (spec/70_reset_and_hazards.md R195, the spec's D28) and the
model's own `loadOpen`, and stays parked. -/
def Obligations.ParkedMachineOnlyTicks : Prop :=
  ∀ (a : Addr) (s : State), Parked a s →
    ∃ t, step s = .next t ∧ t = { s with dt := tickDown s.dt, st := tickDown s.st, loadOpen := false } ∧ Parked a t

/-! ### Skips -/

/-- The four comparison skips, SE and SNE with a byte and with a register (spec/42_skip.md R110 to R113). That the low nibble
`ign` of 5xy0 and 9xy0 is not read is the spec's D2 (log entry 7).
The numbers in `Encodes` are the spec's D3 (log entry 6). -/
def Obligations.ComparisonSkipsCompare : Prop :=
  (Encodes 0xF000 0x3000 (fun w => .seKk (Word.x w) (Word.kk w)) ∧
    Encodes 0xF000 0x4000 (fun w => .sneKk (Word.x w) (Word.kk w)) ∧
    Encodes 0xF000 0x5000 (fun w => .seVy (Word.x w) (Word.y w) (Word.n w)) ∧
    Encodes 0xF000 0x9000 (fun w => .sneVy (Word.x w) (Word.y w) (Word.n w))) ∧
  (∀ (x : Reg) (kk : Byte) (s : State),
    exec (.seKk x kk) s = .next { s with pc := if (s.reg x).toNat = kk.toNat then s.pc + 2 else s.pc } ∧
    exec (.sneKk x kk) s = .next { s with pc := if (s.reg x).toNat ≠ kk.toNat then s.pc + 2 else s.pc }) ∧
  (∀ (x y : Reg) (ign : Nibble) (s : State),
    exec (.seVy x y ign) s =
      .next { s with pc := if (s.reg x).toNat = (s.reg y).toNat then s.pc + 2 else s.pc } ∧
    exec (.sneVy x y ign) s =
      .next { s with pc := if (s.reg x).toNat ≠ (s.reg y).toNat then s.pc + 2 else s.pc })

/-! ### pc after every Step -/

/-- R25: `pc` is 0x200 at first; between Steps it is where the next word is fetched; the handler runs with `pc` two beyond, and
what it leaves there is what the Step leaves; and the table of R25, for every instruction and for the no-op, of `pc` after a Step
that completes (one that leaves the latch clear). -/
def Obligations.PcAfterEachStepIsAsTabled : Prop :=
  State.reset.pc = 0x200 ∧
  ∀ (s t : State) (w : Word), s.err = none → fetch s = .ok w → step s = .next t → t.err = none →
    w = nextWord s ∧
    (∃ u, runWord w { s with pc := s.pc + 2 } = .next u ∧ t.pc = u.pc) ∧
    (∀ i, decode w = .ok i → PcAfter s t i) ∧
    (∀ e, decode w = .error e → t.pc.toNat = s.pc.toNat + 2)

/-! ### The skip of all six -/

/-- The skip (spec/42_skip.md R114): a Step of any of the six skip instructions advances `pc` by 4 in all when the condition
holds and by 2 when it does not; it looks at no memory beyond its own word, and the timers tick once; where a taken skip leaves
memory, the next Step raises FetchOutOfBounds. `loadOpen` is the model's own (log entry 10); the tick is the spec's D23 (log entry
21), the fetch bound its D20 (log entry 20), the error as a next state with the latch set its D16 (log entry 1). A key skip whose
register is above 15 is in KeySkipsTestTheInputMap. -/
def Obligations.SkipAdvancesByFourOrTwo : Prop :=
  ∀ (s : State) (i : Instr) (c : Bool), CanFetch s → decode (nextWord s) = .ok i → skipTaken s i = some c →
    step s = .next { s with
      pc := s.pc + (if c then 4 else 2), dt := tickDown s.dt, st := tickDown s.st, loadOpen := false } ∧
    (c = true → 0xFFC ≤ s.pc.toNat → ∀ t, step s = .next t →
      t.pc.toNat = s.pc.toNat + 4 ∧ step t = .next { t with err := some (.fetchOutOfBounds t.pc) })

/-- The key skips (spec/46_input_timer.md R160, R161; the error for a register above 15 is the spec's D12, log entry 16). That
the unread `ign` may be anything is its D2 (log entry 7); that the error is a next state with the latch set and all else kept is
its D16 (log entry 1).
The numbers in `Encodes` are the spec's D3 (log entry 6). -/
def Obligations.KeySkipsTestTheInputMap : Prop :=
  Encodes 0xF00F 0xE00E (fun w => .skp (Word.x w) (Word.y w)) ∧
  Encodes 0xF00F 0xE001 (fun w => .sknp (Word.x w) (Word.y w)) ∧
  ∀ (x : Reg) (ign : Nibble) (s : State),
    (15 < (s.reg x).toNat →
      exec (.skp x ign) s = .next { s with err := some (.keyIndexOutOfRange (s.reg x)) } ∧
      exec (.sknp x ign) s = .next { s with err := some (.keyIndexOutOfRange (s.reg x)) }) ∧
    (∀ h : (s.reg x).toNat < 16,
      exec (.skp x ign) s =
        .next { s with pc := if s.keys[(s.reg x).toNat]'h = true then s.pc + 2 else s.pc } ∧
      exec (.sknp x ign) s =
        .next { s with pc := if s.keys[(s.reg x).toNat]'h = false then s.pc + 2 else s.pc })

/-! ### Arithmetic and logic -/

/-- LD Vx, kk (spec/43_arith_logic.md R121).
The numbers in `Encodes` are the spec's D3 (log entry 6). -/
def Obligations.LoadImmediateWritesTheByte : Prop :=
  Encodes 0xF000 0x6000 (fun w => .ldKk (Word.x w) (Word.kk w)) ∧
  ∀ (x : Reg) (kk : Byte) (s : State), ∃ t, exec (.ldKk x kk) s = .next t ∧ t = { s with v := t.v } ∧
    ∀ r, t.reg r = if r = x then kk else s.reg r

/-- ADD Vx, kk (spec/43_arith_logic.md R122; that `VF` is not written is the spec's D5, log entry 11).
The numbers in `Encodes` are the spec's D3 (log entry 6). -/
def Obligations.AddImmediateWrapsWithoutFlag : Prop :=
  Encodes 0xF000 0x7000 (fun w => .addKk (Word.x w) (Word.kk w)) ∧
  ∀ (x : Reg) (kk : Byte) (s : State), ∃ t, exec (.addKk x kk) s = .next t ∧ t = { s with v := t.v } ∧
    (t.reg x).toNat = ((s.reg x).toNat + kk.toNat) % 256 ∧ ∀ r, r ≠ x → t.reg r = s.reg r

/-- LD, OR, AND, XOR Vx, Vy (spec/43_arith_logic.md R123 to R126; that `VF` is not written is the spec's D6, log entry 11).
The numbers in `Encodes` are the spec's D3 (log entry 6). -/
def Obligations.CopyAndBitwiseWorkBitByBit : Prop :=
  Encodes 0xF00F 0x8000 (fun w => .ldVy (Word.x w) (Word.y w)) ∧
  Encodes 0xF00F 0x8001 (fun w => .orVy (Word.x w) (Word.y w)) ∧
  Encodes 0xF00F 0x8002 (fun w => .andVy (Word.x w) (Word.y w)) ∧
  Encodes 0xF00F 0x8003 (fun w => .xorVy (Word.x w) (Word.y w)) ∧
  ∀ (x y : Reg) (s : State),
    (∃ t, exec (.ldVy x y) s = .next t ∧ t = { s with v := t.v } ∧
      t.reg x = s.reg y ∧ ∀ r, r ≠ x → t.reg r = s.reg r) ∧
    (∃ t, exec (.orVy x y) s = .next t ∧ t = { s with v := t.v } ∧
      (∀ k, (t.reg x).getLsbD k = ((s.reg x).getLsbD k || (s.reg y).getLsbD k)) ∧
      ∀ r, r ≠ x → t.reg r = s.reg r) ∧
    (∃ t, exec (.andVy x y) s = .next t ∧ t = { s with v := t.v } ∧
      (∀ k, (t.reg x).getLsbD k = ((s.reg x).getLsbD k && (s.reg y).getLsbD k)) ∧
      ∀ r, r ≠ x → t.reg r = s.reg r) ∧
    (∃ t, exec (.xorVy x y) s = .next t ∧ t = { s with v := t.v } ∧
      (∀ k, (t.reg x).getLsbD k = ((s.reg x).getLsbD k ^^ (s.reg y).getLsbD k)) ∧
      ∀ r, r ≠ x → t.reg r = s.reg r)

/-- ADD Vx, Vy (spec/43_arith_logic.md R127, R132). That with x = 15 the flag is what remains is R120, the spec's D8 (log
entry 13).
The numbers in `Encodes` are the spec's D3 (log entry 6). -/
def Obligations.AddSetsCarry : Prop :=
  Encodes 0xF00F 0x8004 (fun w => .addVy (Word.x w) (Word.y w)) ∧
  ∀ (x y : Reg) (s : State), ∃ t, exec (.addVy x y) s = .next t ∧ t = { s with v := t.v } ∧
    t.reg 0xF = (if (s.reg x).toNat + (s.reg y).toNat > 255 then 1 else 0) ∧
    (x ≠ 0xF → (t.reg x).toNat = ((s.reg x).toNat + (s.reg y).toNat) % 256) ∧
    ∀ r, r ≠ x → r ≠ 0xF → t.reg r = s.reg r

/-- SUB and SUBN (spec/43_arith_logic.md R128, R130; spec/90_conflicts.md C1: the flag is 1 for no borrow, equality included).
That with x = 15 the flag is what remains is R120, the spec's D8 (log entry 13).
The numbers in `Encodes` are the spec's D3 (log entry 6). -/
def Obligations.SubtractionsSetNoBorrow : Prop :=
  Encodes 0xF00F 0x8005 (fun w => .subVy (Word.x w) (Word.y w)) ∧
  Encodes 0xF00F 0x8007 (fun w => .subnVy (Word.x w) (Word.y w)) ∧
  ∀ (x y : Reg) (s : State),
    (∃ t, exec (.subVy x y) s = .next t ∧ t = { s with v := t.v } ∧
      t.reg 0xF = (if (s.reg x).toNat ≥ (s.reg y).toNat then 1 else 0) ∧
      (x ≠ 0xF → ((t.reg x).toNat : Int) = ((s.reg x).toNat - (s.reg y).toNat : Int) % 256) ∧
      ∀ r, r ≠ x → r ≠ 0xF → t.reg r = s.reg r) ∧
    (∃ t, exec (.subnVy x y) s = .next t ∧ t = { s with v := t.v } ∧
      t.reg 0xF = (if (s.reg y).toNat ≥ (s.reg x).toNat then 1 else 0) ∧
      (x ≠ 0xF → ((t.reg x).toNat : Int) = ((s.reg y).toNat - (s.reg x).toNat : Int) % 256) ∧
      ∀ r, r ≠ x → r ≠ 0xF → t.reg r = s.reg r)

/-- SHR and SHL (spec/43_arith_logic.md R129, R131): by one, the flag the bit shifted out. That `V[x]` is the operand is the
spec's D7 (log entry 12), that with x = 15 the flag remains its D8 (log entry 13).
The numbers in `Encodes` are the spec's D3 (log entry 6). -/
def Obligations.ShiftsMoveByOneAndFlagTheBitOut : Prop :=
  Encodes 0xF00F 0x8006 (fun w => .shr (Word.x w) (Word.y w)) ∧
  Encodes 0xF00F 0x800E (fun w => .shl (Word.x w) (Word.y w)) ∧
  ∀ (x y : Reg) (s : State),
    (∃ t, exec (.shr x y) s = .next t ∧ t = { s with v := t.v } ∧
      (t.reg 0xF).toNat = (s.reg x).toNat % 2 ∧ (x ≠ 0xF → (t.reg x).toNat = (s.reg x).toNat / 2) ∧
      ∀ r, r ≠ x → r ≠ 0xF → t.reg r = s.reg r) ∧
    (∃ t, exec (.shl x y) s = .next t ∧ t = { s with v := t.v } ∧
      (t.reg 0xF).toNat = (s.reg x).toNat / 128 ∧ (x ≠ 0xF → (t.reg x).toNat = (s.reg x).toNat * 2 % 256) ∧
      ∀ r, r ≠ x → r ≠ 0xF → t.reg r = s.reg r)

/-! ### Random, index and memory -/

/-- RND (spec/44_random_index_memory.md R140, the spec's D15): one draw, a free value of no law (log entry 3), masked. It holds
whatever the draw is.
The numbers in `Encodes` are the spec's D3 (log entry 6). -/
def Obligations.RndMasksAFreshDraw : Prop :=
  Encodes 0xF000 0xC000 (fun w => .rnd (Word.x w) (Word.kk w)) ∧
  ∀ (x : Reg) (kk : Byte) (s : State), ∃ t, exec (.rnd x kk) s = .next t ∧
    t = { s with v := t.v, drawn := s.drawn + 1 } ∧ t.reg x = Config.drawByte s.drawn &&& kk ∧
    (∀ k, kk.getLsbD k = false → (t.reg x).getLsbD k = false) ∧ (t.reg x).toNat ≤ kk.toNat ∧
    ∀ r, r ≠ x → t.reg r = s.reg r

/-- LD I, nnn (spec/44_random_index_memory.md R141).
The numbers in `Encodes` are the spec's D3 (log entry 6). -/
def Obligations.LdISetsTheIndex : Prop :=
  Encodes 0xF000 0xA000 (fun w => .ldI (Word.nnn w)) ∧
  ∀ (nnn : Addr) (s : State), ∃ t, exec (.ldI nnn) s = .next t ∧ t = { s with i := t.i } ∧ t.i.toNat = nnn.toNat

/-- ADD I, Vx (spec/44_random_index_memory.md R142; the wrap and the untouched `VF` are the spec's D9, log entry 14).
The numbers in `Encodes` are the spec's D3 (log entry 6). -/
def Obligations.AddIWrapsAtSixteenBits : Prop :=
  Encodes 0xF0FF 0xF01E (fun w => .addI (Word.x w)) ∧
  ∀ (x : Reg) (s : State), ∃ t, exec (.addI x) s = .next t ∧ t = { s with i := t.i } ∧
    t.i.toNat = (s.i.toNat + (s.reg x).toNat) % 65536

/-- LD F, Vx (spec/44_random_index_memory.md R143; the formula on the whole byte is the spec's D13, log entry 17). After reset
the five bytes there, for a digit, are its glyph.
The numbers in `Encodes` are the spec's D3 (log entry 6). -/
def Obligations.LdFPointsAtTheGlyph : Prop :=
  Encodes 0xF0FF 0xF029 (fun w => .ldF (Word.x w)) ∧
  (∀ (x : Reg) (s : State), ∃ t, exec (.ldF x) s = .next t ∧ t = { s with i := t.i } ∧
    t.i.toNat = 0x050 + 5 * (s.reg x).toNat) ∧
  (∀ (x : Reg) (s t : State) (k : Nat), s.mem = State.reset.mem → (s.reg x).toNat ≤ 15 → k < 5 →
    exec (.ldF x) s = .next t → t.mem.read (t.i.toNat + k) = fontBytes.getD (5 * (s.reg x).toNat + k) 0)

/-- LD B, Vx (spec/44_random_index_memory.md R144; the unchanged `I` is the spec's D10, log entry 15; the reported address its
D29, log entry 25). The addresses stored to are `I`, `I` + 1, `I` + 2; that they do not wrap and that the store below 0x200 is
allowed is its D11 (log entry 19), that the error is a next state with the latch set and all else kept is its D16 (log entry 1).
The numbers in `Encodes` are the spec's D3 (log entry 6). -/
def Obligations.BcdStoresThreeDigits : Prop :=
  Encodes 0xF0FF 0xF033 (fun w => .ldB (Word.x w)) ∧
  ∀ (x : Reg) (s : State),
    (0xFFF < s.i.toNat + 2 →
      exec (.ldB x) s = .next { s with err := some (.memoryOutOfBounds (max s.i.toNat 0x1000)) }) ∧
    (s.mem.wf = true → s.i.toNat + 2 ≤ 0xFFF → ∃ t, exec (.ldB x) s = .next t ∧ t = { s with mem := t.mem } ∧
      (t.mem.read s.i.toNat).toNat = (s.reg x).toNat / 100 ∧
      (t.mem.read (s.i.toNat + 1)).toNat = (s.reg x).toNat / 10 % 10 ∧
      (t.mem.read (s.i.toNat + 2)).toNat = (s.reg x).toNat % 10 ∧
      ∀ a, a < s.i.toNat ∨ s.i.toNat + 2 < a → t.mem.read a = s.mem.read a)

/-- LD [I], Vx (spec/44_random_index_memory.md R145; the unchanged `I` is the spec's D10, log entry 15; the reported address its
D29, log entry 25). The addresses stored to are `I` to `I` + x; that they do not wrap and that the store below 0x200 is allowed is
its D11 (log entry 19), that the error is a next state with the latch set and all else kept is its D16 (log entry 1).
The numbers in `Encodes` are the spec's D3 (log entry 6). -/
def Obligations.BlockStoreCopiesRegisters : Prop :=
  Encodes 0xF0FF 0xF055 (fun w => .stRegs (Word.x w)) ∧
  ∀ (x : Reg) (s : State),
    (0xFFF < s.i.toNat + x.toNat →
      exec (.stRegs x) s = .next { s with err := some (.memoryOutOfBounds (max s.i.toNat 0x1000)) }) ∧
    (s.mem.wf = true → s.i.toNat + x.toNat ≤ 0xFFF → ∃ t, exec (.stRegs x) s = .next t ∧
      t = { s with mem := t.mem } ∧
      (∀ k : Reg, k.toNat ≤ x.toNat → t.mem.read (s.i.toNat + k.toNat) = s.reg k) ∧
      ∀ a, a < s.i.toNat ∨ s.i.toNat + x.toNat < a → t.mem.read a = s.mem.read a)

/-- LD Vx, [I] (spec/44_random_index_memory.md R146; the unchanged `I` is the spec's D10, log entry 15; the reported address its
D29, log entry 25). That the addresses do not wrap is its D11 (log entry 19), that the error is a next state with the latch set and all else kept is its D16 (log entry 1).
The numbers in `Encodes` are the spec's D3 (log entry 6). -/
def Obligations.BlockLoadCopiesMemory : Prop :=
  Encodes 0xF0FF 0xF065 (fun w => .ldRegs (Word.x w)) ∧
  ∀ (x : Reg) (s : State),
    (0xFFF < s.i.toNat + x.toNat →
      exec (.ldRegs x) s = .next { s with err := some (.memoryOutOfBounds (max s.i.toNat 0x1000)) }) ∧
    (s.i.toNat + x.toNat ≤ 0xFFF → ∃ t, exec (.ldRegs x) s = .next t ∧ t = { s with v := t.v } ∧
      ∀ r : Reg, t.reg r = if r.toNat ≤ x.toNat then s.mem.read (s.i.toNat + r.toNat) else s.reg r)

/-- A block store and the block load of the same registers are inverse: the registers come back whatever happened to them
(spec/44_random_index_memory.md R145, R146). That the store leaves `I` is the spec's D10 (log entry 15). -/
def Obligations.BlockLoadUndoesBlockStore : Prop :=
  ∀ (x : Reg) (s t u : State), s.mem.wf = true → s.i.toNat + x.toNat ≤ 0xFFF → exec (.stRegs x) s = .next t →
    u.mem = t.mem → u.i = t.i →
    ∃ z, exec (.ldRegs x) u = .next z ∧ ∀ r : Reg, r.toNat ≤ x.toNat → z.reg r = s.reg r

/-- A store is seen by the very next fetch (spec/20_memory.md R63; that there is nothing between store and fetch is the spec's
D27, log entry 30). After any instruction that raises nothing, a fetch anywhere gives, for each of its two bytes, the byte the
instruction stored there (the digits of Fx33 or the registers of Fx55, from `I` on) or else the byte that was there: also the fetch
at `I` - 1, whose low byte alone is new, and at the last address stored to, whose high byte alone is. The same of a Step and the
fetch of the Step after it, wherever the store went: a store over the Step's own word does not change what that Step does. That
the store leaves every other byte, and goes where it goes without wrapping, is the spec's D11 (log entry 19). -/
def Obligations.FetchSeesStoredBytes : Prop :=
  (∀ (i : Instr) (s t : State) (p : Word), s.mem.wf = true → s.err = none → exec i s = .next t → t.err = none →
    p.toNat ≤ 0xFFE →
    fetch { t with pc := p } = .ok (Word.ofBytes (byteAfter s i p.toNat) (byteAfter s i (p.toNat + 1)))) ∧
  (∀ (i : Instr) (s t : State), s.mem.wf = true → CanFetch s → decode (nextWord s) = .ok i → step s = .next t →
    t.err = none → t.pc.toNat ≤ 0xFFE →
    fetch t = .ok (Word.ofBytes (byteAfter s i t.pc.toNat) (byteAfter s i (t.pc.toNat + 1))))

/-! ### Sprite -/

/-- DRW (spec/45_sprite.md R150 to R152): the covered pixels are inverted and no other, `VF` tells whether one of them was on, and
an access that does not fit changes nothing. The unchanged `I` is the spec's D10, the draw of height 0 its D14, the reported
address its D29 (log entries 15, 18, 25); that every pixel wraps is its C3 (log entry 23); that the addresses do not wrap is its
D11 (log entry 19), that the error is a next state with the latch set and all else kept is its D16 (log entry 1).
The numbers in `Encodes` are the spec's D3 (log entry 6). -/
def Obligations.DrawInvertsTheCoveredPixels : Prop :=
  Encodes 0xF000 0xD000 (fun w => .drw (Word.x w) (Word.y w) (Word.n w)) ∧
  ∀ (x y : Reg) (n : Nibble) (s : State),
    (0 < n.toNat → 0x1000 < s.i.toNat + n.toNat →
      exec (.drw x y n) s = .next { s with err := some (.memoryOutOfBounds (max s.i.toNat 0x1000)) }) ∧
    (n.toNat = 0 ∨ s.i.toNat + n.toNat ≤ 0x1000 → ∃ t, exec (.drw x y n) s = .next t ∧
      t = { s with v := t.v, frame := t.frame } ∧
      (∀ px py, SpriteCovers s x y n.toNat px py → t.frame.pixel px py = !s.frame.pixel px py) ∧
      (∀ px py, ¬ SpriteCovers s x y n.toNat px py → t.frame.pixel px py = s.frame.pixel px py) ∧
      ((∃ px py, SpriteCovers s x y n.toNat px py ∧ s.frame.pixel px py = true) → t.reg 0xF = 1) ∧
      ((¬ ∃ px py, SpriteCovers s x y n.toNat px py ∧ s.frame.pixel px py = true) → t.reg 0xF = 0) ∧
      ∀ r, r ≠ 0xF → t.reg r = s.reg r)

/-- The XOR law (spec/45_sprite.md R153): the same draw again, at the same location, restores the framebuffer. "The same
location" is asked of the registers, so x or y may be 15. By R150 its flag is 1 exactly when the first draw turned some pixel on
(R153's own sentence on the flag says more and is the next statement; the spec has no ruling, and the model follows R150, log
entry 31). That the first draw leaves `I` is the spec's D10 (log entry 15). -/
def Obligations.DrawingTwiceRestoresTheScreen : Prop :=
  ∀ (x y : Reg) (n : Nibble) (s t u : State), (n.toNat = 0 ∨ s.i.toNat + n.toNat ≤ 0x1000) →
    exec (.drw x y n) s = .next t → t.reg x = s.reg x → t.reg y = s.reg y → exec (.drw x y n) t = .next u →
    u.frame = s.frame ∧
    (u.reg 0xF = 1 ↔ ∃ px py, SpriteCovers s x y n.toNat px py ∧ s.frame.pixel px py = false)

/-- EXPECTED TO FAIL. The sentence of spec/45_sprite.md R153, which the spec marks as its own inference, that the second of two
equal draws sets `VF` whenever the sprite has any 1 bit: by R150 it does not when every pixel the sprite covers was on before the
first draw (log entry 31). -/
def Obligations.SecondDrawFlagIsOneForEverySprite : Prop :=
  ∀ (x y : Reg) (n : Nibble) (s t u : State), (n.toNat = 0 ∨ s.i.toNat + n.toNat ≤ 0x1000) →
    exec (.drw x y n) s = .next t → t.reg x = s.reg x → t.reg y = s.reg y → exec (.drw x y n) t = .next u →
    (∃ px py, SpriteCovers s x y n.toNat px py) → u.reg 0xF = 1

/-! ### Input and timers -/

/-- LD Vx, K (spec/46_input_timer.md R162): with no key pressed the handler goes back to its own address and a Step of it
changes only the timers; otherwise the lowest pressed key goes into `V[x]`. `loadOpen` is the model's own (log entry 10).
The numbers in `Encodes` are the spec's D3 (log entry 6). -/
def Obligations.WaitForKeyPollsTheInputMap : Prop :=
  Encodes 0xF0FF 0xF00A (fun w => .ldVxK (Word.x w)) ∧
  (∀ (x : Reg) (s : State), (∀ k, s.key k = false) → exec (.ldVxK x) s = .next { s with pc := s.pc - 2 }) ∧
  (∀ (x k : Reg) (s : State), s.key k = true → (∀ j : Reg, j.toNat < k.toNat → s.key j = false) →
    ∃ t, exec (.ldVxK x) s = .next t ∧ t = { s with v := t.v } ∧ (t.reg x).toNat = k.toNat ∧
      ∀ r, r ≠ x → t.reg r = s.reg r) ∧
  (∀ (x : Reg) (s : State), CanFetch s → decode (nextWord s) = .ok (.ldVxK x) → (∀ k, s.key k = false) →
    step s = .next { s with dt := tickDown s.dt, st := tickDown s.st, loadOpen := false })

/-- LD Vx, DT (spec/46_input_timer.md R163): the value read is that before this Step's tick, which then acts on `DT` and not on `V[x]`.
The numbers in `Encodes` are the spec's D3 (log entry 6). -/
def Obligations.ReadDelayTimerBeforeTheTick : Prop :=
  Encodes 0xF0FF 0xF007 (fun w => .ldVxDt (Word.x w)) ∧
  (∀ (x : Reg) (s : State), ∃ t, exec (.ldVxDt x) s = .next t ∧ t = { s with v := t.v } ∧
    ∀ r, t.reg r = if r = x then s.dt else s.reg r) ∧
  (∀ (x : Reg) (s : State), CanFetch s → decode (nextWord s) = .ok (.ldVxDt x) →
    ∃ t, step s = .next t ∧ t.reg x = s.dt ∧ t.dt.toNat = s.dt.toNat - 1)

/-- LD DT, Vx and LD ST, Vx (spec/46_input_timer.md R164, R165): the handler writes the register's value, and the tick of the same
Step (spec/40_step_cycle.md R96, the spec's D23) leaves one less, or 0.
The numbers in `Encodes` are the spec's D3 (log entry 6). -/
def Obligations.WritingATimerTicksInTheSameStep : Prop :=
  Encodes 0xF0FF 0xF015 (fun w => .ldDtVx (Word.x w)) ∧ Encodes 0xF0FF 0xF018 (fun w => .ldStVx (Word.x w)) ∧
  (∀ (x : Reg) (s : State), exec (.ldDtVx x) s = .next { s with dt := s.reg x } ∧
    exec (.ldStVx x) s = .next { s with st := s.reg x }) ∧
  (∀ (x : Reg) (s : State), CanFetch s →
    (decode (nextWord s) = .ok (.ldDtVx x) → ∃ t, step s = .next t ∧ t.dt.toNat = (s.reg x).toNat - 1) ∧
    (decode (nextWord s) = .ok (.ldStVx x) → ∃ t, step s = .next t ∧ t.st.toNat = (s.reg x).toNat - 1))
end

