-- ==== Sys2Proof/Laws/Decode.lean ====
section
/-! SUPPORT. The fields of a word, put together and taken apart (spec/30_encoding.md R71, R72), and what a mask of the opcode
map reads (R76). Proofs about decoding cite these and never look at single bits. -/

namespace Sys2Proof

open BitVec (extractLsb'_append_eq_left extractLsb'_append_eq_right extractLsb'_append_eq_of_le
  extractLsb'_append_eq_of_add_le extractLsb'_append_extractLsb'_eq_extractLsb')

/-! ### Fields of a word written in one of the formats of R72 -/

section Formats
variable (c x y n : BitVec 4) (kk mid : BitVec 8) (nnn : BitVec 12)

@[simp] theorem cls_formatA : Word.cls (c ++ nnn) = c := extractLsb'_append_eq_left
@[simp] theorem nnn_formatA : Word.nnn (c ++ nnn) = nnn := extractLsb'_append_eq_right

@[simp] theorem cls_formatXK : Word.cls (c ++ x ++ kk) = c :=
  (extractLsb'_append_eq_of_le (by decide)).trans extractLsb'_append_eq_left
@[simp] theorem x_formatXK : Word.x (c ++ x ++ kk) = x :=
  (extractLsb'_append_eq_of_le (by decide)).trans extractLsb'_append_eq_right
@[simp] theorem kk_formatXK : Word.kk (c ++ x ++ kk) = kk := extractLsb'_append_eq_right

@[simp] theorem cls_formatZ : Word.cls (c ++ mid ++ n) = c :=
  (extractLsb'_append_eq_of_le (by decide)).trans extractLsb'_append_eq_left
@[simp] theorem mid_formatZ : Word.mid (c ++ mid ++ n) = mid :=
  (extractLsb'_append_eq_of_le (by decide)).trans extractLsb'_append_eq_right
@[simp] theorem n_formatZ : Word.n (c ++ mid ++ n) = n := extractLsb'_append_eq_right

@[simp] theorem cls_formatXYN : Word.cls (c ++ x ++ y ++ n) = c :=
  (extractLsb'_append_eq_of_le (by decide)).trans
    ((extractLsb'_append_eq_of_le (by decide)).trans extractLsb'_append_eq_left)
@[simp] theorem x_formatXYN : Word.x (c ++ x ++ y ++ n) = x :=
  (extractLsb'_append_eq_of_le (by decide)).trans
    ((extractLsb'_append_eq_of_le (by decide)).trans extractLsb'_append_eq_right)
@[simp] theorem y_formatXYN : Word.y (c ++ x ++ y ++ n) = y :=
  (extractLsb'_append_eq_of_le (by decide)).trans extractLsb'_append_eq_right
@[simp] theorem n_formatXYN : Word.n (c ++ x ++ y ++ n) = n := extractLsb'_append_eq_right

end Formats

/-! ### A word is its fields -/

section Rebuild
variable (w : Word)

theorem rebuild_full : w.extractLsb' 0 16 = w := BitVec.extractLsb'_eq_self

theorem rebuild_formatA : Word.cls w ++ Word.nnn w = w :=
  (extractLsb'_append_extractLsb'_eq_extractLsb' rfl).trans (rebuild_full w)

theorem rebuild_formatXK : Word.cls w ++ Word.x w ++ Word.kk w = w := by
  have h : Word.cls w ++ Word.x w = w.extractLsb' 8 8 := extractLsb'_append_extractLsb'_eq_extractLsb' rfl
  rw [h]
  exact (extractLsb'_append_extractLsb'_eq_extractLsb' rfl).trans (rebuild_full w)

theorem rebuild_formatZ : Word.cls w ++ Word.mid w ++ Word.n w = w := by
  have h : Word.cls w ++ Word.mid w = w.extractLsb' 4 12 := extractLsb'_append_extractLsb'_eq_extractLsb' rfl
  rw [h]
  exact (extractLsb'_append_extractLsb'_eq_extractLsb' rfl).trans (rebuild_full w)

theorem rebuild_formatXYN : Word.cls w ++ Word.x w ++ Word.y w ++ Word.n w = w := by
  have h : Word.cls w ++ Word.x w = w.extractLsb' 8 8 := extractLsb'_append_extractLsb'_eq_extractLsb' rfl
  have h' : w.extractLsb' 8 8 ++ Word.y w = w.extractLsb' 4 12 := extractLsb'_append_extractLsb'_eq_extractLsb' rfl
  rw [h, h']
  exact (extractLsb'_append_extractLsb'_eq_extractLsb' rfl).trans (rebuild_full w)

/-- The two bytes of a word, big-endian (R53). -/
theorem rebuild_bytes : Word.hi w ++ Word.lo w = w :=
  (extractLsb'_append_extractLsb'_eq_extractLsb' rfl).trans (rebuild_full w)

@[simp] theorem hi_ofBytes (hi lo : Byte) : Word.hi (hi ++ lo) = hi := extractLsb'_append_eq_left
@[simp] theorem lo_ofBytes (hi lo : Byte) : Word.lo (hi ++ lo) = lo := extractLsb'_append_eq_right

end Rebuild

/-! ### The last class -/

/-- A nibble that is none of 0 to 0xE is 0xF: the class of the decoder's last arm. -/
theorem nibble_last (c : Nibble) (h : c ∉ [0x0#4, 0x1#4, 0x2#4, 0x3#4, 0x4#4, 0x5#4, 0x6#4, 0x7#4, 0x8#4, 0x9#4, 0xA#4,
    0xB#4, 0xC#4, 0xD#4, 0xE#4]) : c = 0xF#4 := by
  revert c; decide

theorem decode_class0 {w : Word} (h : Word.cls w = 0x0#4) : decode w = decodeClass0 w := by simp [decode, h]
theorem decode_class8 {w : Word} (h : Word.cls w = 0x8#4) : decode w = decodeClass8 w := by simp [decode, h]
theorem decode_classE {w : Word} (h : Word.cls w = 0xE#4) : decode w = decodeClassE w := by simp [decode, h]
theorem decode_classF {w : Word} (h : Word.cls w = 0xF#4) : decode w = decodeClassF w := by simp [decode, h]

/-! ### What a mask of the opcode map reads (R76) -/

/-- Mask 0xF000 reads the class alone. -/
theorem mask_class (w : Word) (c : Nibble) : w &&& 0xF000#16 = c ++ 0#12 ↔ Word.cls w = c := by
  constructor
  · intro h
    have := congrArg Word.cls h
    rw [cls_formatA] at this
    rw [← this, Word.cls, Word.cls, BitVec.extractLsb'_and]
    exact (BitVec.and_allOnes).symm
  · intro h
    conv_lhs => rw [← rebuild_formatA w, h, show (0xF000#16) = 0xF#4 ++ 0#12 from rfl]
    exact (BitVec.and_append).trans (by rw [show 0xF#4 = BitVec.allOnes 4 from rfl, BitVec.and_allOnes, BitVec.and_zero])

/-- Mask 0xF00F reads the class and the low nibble. -/
theorem mask_class_nibble (w : Word) (c n : Nibble) :
    w &&& 0xF00F#16 = c ++ 0#8 ++ n ↔ Word.cls w = c ∧ Word.n w = n := by
  constructor
  · intro h
    have h1 := congrArg Word.cls h
    have h2 := congrArg Word.n h
    rw [cls_formatZ] at h1
    rw [n_formatZ] at h2
    rw [← h1, ← h2, Word.cls, Word.cls, Word.n, Word.n, BitVec.extractLsb'_and, BitVec.extractLsb'_and]
    exact ⟨(BitVec.and_allOnes).symm, (BitVec.and_allOnes).symm⟩
  · rintro ⟨h1, h2⟩
    conv_lhs => rw [← rebuild_formatZ w, h1, h2, show (0xF00F#16) = 0xF#4 ++ 0#8 ++ 0xF#4 from rfl]
    refine (BitVec.and_append).trans ?_
    rw [BitVec.and_append, show 0xF#4 = BitVec.allOnes 4 from rfl, BitVec.and_allOnes, BitVec.and_allOnes,
      BitVec.and_zero]

/-- Mask 0xF0FF reads the class and the low byte. -/
theorem mask_class_byte (w : Word) (c : Nibble) (kk : Byte) :
    w &&& 0xF0FF#16 = c ++ 0#4 ++ kk ↔ Word.cls w = c ∧ Word.kk w = kk := by
  constructor
  · intro h
    have h1 := congrArg Word.cls h
    have h2 := congrArg Word.kk h
    rw [cls_formatXK] at h1
    rw [kk_formatXK] at h2
    rw [← h1, ← h2, Word.cls, Word.cls, Word.kk, Word.kk, BitVec.extractLsb'_and, BitVec.extractLsb'_and]
    exact ⟨(BitVec.and_allOnes).symm, (BitVec.and_allOnes).symm⟩
  · rintro ⟨h1, h2⟩
    conv_lhs => rw [← rebuild_formatXK w, h1, h2, show (0xF0FF#16) = 0xF#4 ++ 0#4 ++ 0xFF#8 from rfl]
    refine (BitVec.and_append).trans ?_
    rw [BitVec.and_append, show 0xF#4 = BitVec.allOnes 4 from rfl, show 0xFF#8 = BitVec.allOnes 8 from rfl,
      BitVec.and_allOnes, BitVec.and_allOnes, BitVec.and_zero]

end Sys2Proof
end

