-- ==== Sys2Proof/Laws/Memory.lean ====
section
/-! SUPPORT. The laws of memory: every operation keeps the canonical form, and a read after a write gives the byte written
at its address and what was there before at every other. -/

namespace Sys2Proof.Machine

/-- The canonical form of a listed cell and what follows it. -/
theorem Memory.wfFrom_cons {lo a : Nat} {b : Byte} {m : Memory} :
    Memory.wfFrom lo ((a, b) :: m) = true ↔
      lo ≤ a ∧ a < Config.memSize ∧ b ≠ resetByte a ∧ Memory.wfFrom (a + 1) m = true := by
  simp [Memory.wfFrom, and_assoc]

theorem Memory.wfFrom_mono {lo lo' : Nat} (h : lo' ≤ lo) {m : Memory} (hm : Memory.wfFrom lo m = true) :
    Memory.wfFrom lo' m = true := by
  cases m with
  | nil => rfl
  | cons c m =>
    obtain ⟨a, b⟩ := c
    rw [Memory.wfFrom_cons] at hm ⊢
    exact ⟨le_trans h hm.1, hm.2⟩

@[simp] theorem Memory.read_nil (a : Nat) : Memory.read [] a = resetByte a := rfl

/-- An address below every listed one reads as after reset. -/
theorem Memory.read_below {lo a : Nat} (h : a < lo) {m : Memory} (hm : Memory.wfFrom lo m = true) :
    m.read a = resetByte a := by
  cases m with
  | nil => rfl
  | cons c m =>
    obtain ⟨k, b⟩ := c
    have := (Memory.wfFrom_cons.1 hm).1
    rw [Memory.read, if_neg (by omega), if_pos (by omega)]

theorem Memory.cons_wfFrom {lo a : Nat} {b : Byte} {m : Memory} (hlo : lo ≤ a) (ha : a < Config.memSize)
    (hm : Memory.wfFrom (a + 1) m = true) : Memory.wfFrom lo (Memory.cons a b m) = true := by
  unfold Memory.cons
  split
  · exact Memory.wfFrom_mono (by omega) hm
  · exact Memory.wfFrom_cons.2 ⟨hlo, ha, ‹_›, hm⟩

theorem Memory.read_cons {a : Nat} {b : Byte} {m : Memory} (hm : Memory.wfFrom (a + 1) m = true) (x : Nat) :
    (Memory.cons a b m).read x = if x = a then b else m.read x := by
  unfold Memory.cons
  by_cases hb : b = resetByte a
  · rw [if_pos hb]
    by_cases hx : x = a
    · rw [if_pos hx, hx, hb, Memory.read_below (by omega) hm]
    · rw [if_neg hx]
  · rw [if_neg hb, Memory.read]
    by_cases hx : x = a
    · simp [hx]
    · simp only [hx, if_false]
      split
      · exact (Memory.read_below (by omega) hm).symm
      · rfl

theorem Memory.insert_wfFrom {lo a : Nat} {b : Byte} {m : Memory} (hlo : lo ≤ a) (ha : a < Config.memSize)
    (hm : Memory.wfFrom lo m = true) : Memory.wfFrom lo (Memory.insert a b m) = true := by
  induction m generalizing lo with
  | nil => exact Memory.cons_wfFrom hlo ha rfl
  | cons c m ih =>
    obtain ⟨k, d⟩ := c
    obtain ⟨h1, h2, h3, h4⟩ := Memory.wfFrom_cons.1 hm
    rw [Memory.insert]
    split
    · next e => subst e; exact Memory.cons_wfFrom hlo ha h4
    · split
      · exact Memory.cons_wfFrom hlo ha (Memory.wfFrom_cons.2 ⟨by omega, h2, h3, h4⟩)
      · exact Memory.wfFrom_cons.2 ⟨h1, h2, h3, ih (by omega) h4⟩

theorem Memory.read_insert {lo a : Nat} {b : Byte} {m : Memory} (hm : Memory.wfFrom lo m = true) (x : Nat) :
    (Memory.insert a b m).read x = if x = a then b else m.read x := by
  induction m generalizing lo with
  | nil => exact Memory.read_cons rfl x
  | cons c m ih =>
    obtain ⟨k, d⟩ := c
    obtain ⟨h1, h2, h3, h4⟩ := Memory.wfFrom_cons.1 hm
    rw [Memory.insert]
    split
    · next e =>
      subst e
      rw [Memory.read_cons h4, Memory.read]
      by_cases hx : x = a
      · simp [hx]
      · simp only [hx, if_false]
        split
        · exact Memory.read_below (by omega) h4
        · rfl
    · split
      · exact Memory.read_cons (Memory.wfFrom_cons.2 ⟨by omega, h2, h3, h4⟩) x
      · rw [Memory.read, Memory.read, ih h4]
        by_cases hx : x = k
        · subst hx; rw [if_pos rfl, if_pos rfl, if_neg (by omega)]
        · rw [if_neg hx, if_neg hx]
          by_cases hk : x < k
          · rw [if_pos hk, if_pos hk, if_neg (by omega)]
          · rw [if_neg hk, if_neg hk]

/-! ### One write -/

theorem Memory.write_wf {m : Memory} (hm : m.wf = true) (a : Nat) (b : Byte) : (m.write a b).wf = true := by
  unfold Memory.write
  split
  · exact Memory.insert_wfFrom (Nat.zero_le _) ‹_› hm
  · exact hm

theorem Memory.read_write {m : Memory} (hm : m.wf = true) {a : Nat} (ha : a < Config.memSize) (b : Byte) (x : Nat) :
    (m.write a b).read x = if x = a then b else m.read x := by
  rw [Memory.write, if_pos ha]; exact Memory.read_insert hm x

/-! ### A run of writes -/

theorem Memory.writeBytes_wf {m : Memory} (hm : m.wf = true) (a : Nat) (bs : List Byte) :
    (m.writeBytes a bs).wf = true := by
  induction bs generalizing m a with
  | nil => exact hm
  | cons b bs ih => exact ih (Memory.write_wf hm a b) (a + 1)

theorem Memory.read_writeBytes {m : Memory} (hm : m.wf = true) {a : Nat} {bs : List Byte}
    (h : a + bs.length ≤ Config.memSize) (x : Nat) :
    (m.writeBytes a bs).read x = if a ≤ x ∧ x < a + bs.length then bs.getD (x - a) 0 else m.read x := by
  induction bs generalizing m a with
  | nil => rw [Memory.writeBytes, if_neg (by simp only [List.length_nil]; omega)]
  | cons b bs ih =>
    simp only [List.length_cons] at h ⊢
    rw [Memory.writeBytes, ih (Memory.write_wf hm a b) (by omega), Memory.read_write hm (by omega)]
    by_cases hx : x = a
    · subst hx
      rw [if_neg (by omega), if_pos rfl, if_pos (by omega)]; simp
    · by_cases hin : a + 1 ≤ x ∧ x < a + 1 + bs.length
      · have e : x - a = (x - (a + 1)) + 1 := by omega
        rw [if_pos hin, if_pos (by omega), e, List.getD_cons_succ]
      · rw [if_neg hin, if_neg hx, if_neg (by omega)]

/-- The word at an address as a number: the first byte is the high one (R53). -/
theorem Memory.wordAt_toNat (m : Memory) (a : Nat) :
    (m.wordAt a).toNat = (m.read a).toNat * 256 + (m.read (a + 1)).toNat := by
  refine (BitVec.toNat_append (m.read a) (m.read (a + 1))).trans ?_
  rw [← Nat.shiftLeft_add_eq_or_of_lt (m.read (a + 1)).isLt, Nat.shiftLeft_eq]

end Sys2Proof.Machine
end

