-- ==== Sys2Proof/Laws/State.lean ====
section
/-! SUPPORT. The small lemmas of the state: one per field and update, true by `rfl`, and the laws of registers. -/

namespace Sys2Proof.Machine

variable (s : State)

/-! ### Fields after an update -/

@[simp] theorem State.setReg_i (x : Reg) (b : Byte) : (s.setReg x b).i = s.i := rfl
@[simp] theorem State.setReg_pc (x : Reg) (b : Byte) : (s.setReg x b).pc = s.pc := rfl
@[simp] theorem State.setReg_stack (x : Reg) (b : Byte) : (s.setReg x b).stack = s.stack := rfl
@[simp] theorem State.setReg_sp (x : Reg) (b : Byte) : (s.setReg x b).sp = s.sp := rfl
@[simp] theorem State.setReg_dt (x : Reg) (b : Byte) : (s.setReg x b).dt = s.dt := rfl
@[simp] theorem State.setReg_st (x : Reg) (b : Byte) : (s.setReg x b).st = s.st := rfl
@[simp] theorem State.setReg_keys (x : Reg) (b : Byte) : (s.setReg x b).keys = s.keys := rfl
@[simp] theorem State.setReg_frame (x : Reg) (b : Byte) : (s.setReg x b).frame = s.frame := rfl
@[simp] theorem State.setReg_mem (x : Reg) (b : Byte) : (s.setReg x b).mem = s.mem := rfl
@[simp] theorem State.setReg_err (x : Reg) (b : Byte) : (s.setReg x b).err = s.err := rfl
@[simp] theorem State.setReg_drawn (x : Reg) (b : Byte) : (s.setReg x b).drawn = s.drawn := rfl
@[simp] theorem State.setReg_loadOpen (x : Reg) (b : Byte) : (s.setReg x b).loadOpen = s.loadOpen := rfl

@[simp] theorem State.setI_v (a : Word) : (s.setI a).v = s.v := rfl
@[simp] theorem State.setI_i (a : Word) : (s.setI a).i = a := rfl
@[simp] theorem State.setI_pc (a : Word) : (s.setI a).pc = s.pc := rfl
@[simp] theorem State.setI_stack (a : Word) : (s.setI a).stack = s.stack := rfl
@[simp] theorem State.setI_sp (a : Word) : (s.setI a).sp = s.sp := rfl
@[simp] theorem State.setI_dt (a : Word) : (s.setI a).dt = s.dt := rfl
@[simp] theorem State.setI_st (a : Word) : (s.setI a).st = s.st := rfl
@[simp] theorem State.setI_keys (a : Word) : (s.setI a).keys = s.keys := rfl
@[simp] theorem State.setI_frame (a : Word) : (s.setI a).frame = s.frame := rfl
@[simp] theorem State.setI_mem (a : Word) : (s.setI a).mem = s.mem := rfl
@[simp] theorem State.setI_err (a : Word) : (s.setI a).err = s.err := rfl
@[simp] theorem State.setI_drawn (a : Word) : (s.setI a).drawn = s.drawn := rfl
@[simp] theorem State.setI_loadOpen (a : Word) : (s.setI a).loadOpen = s.loadOpen := rfl

@[simp] theorem State.setPc_v (a : Word) : (s.setPc a).v = s.v := rfl
@[simp] theorem State.setPc_i (a : Word) : (s.setPc a).i = s.i := rfl
@[simp] theorem State.setPc_pc (a : Word) : (s.setPc a).pc = a := rfl
@[simp] theorem State.setPc_stack (a : Word) : (s.setPc a).stack = s.stack := rfl
@[simp] theorem State.setPc_sp (a : Word) : (s.setPc a).sp = s.sp := rfl
@[simp] theorem State.setPc_dt (a : Word) : (s.setPc a).dt = s.dt := rfl
@[simp] theorem State.setPc_st (a : Word) : (s.setPc a).st = s.st := rfl
@[simp] theorem State.setPc_keys (a : Word) : (s.setPc a).keys = s.keys := rfl
@[simp] theorem State.setPc_frame (a : Word) : (s.setPc a).frame = s.frame := rfl
@[simp] theorem State.setPc_mem (a : Word) : (s.setPc a).mem = s.mem := rfl
@[simp] theorem State.setPc_err (a : Word) : (s.setPc a).err = s.err := rfl
@[simp] theorem State.setPc_drawn (a : Word) : (s.setPc a).drawn = s.drawn := rfl
@[simp] theorem State.setPc_loadOpen (a : Word) : (s.setPc a).loadOpen = s.loadOpen := rfl

@[simp] theorem State.setDt_v (b : Byte) : (s.setDt b).v = s.v := rfl
@[simp] theorem State.setDt_i (b : Byte) : (s.setDt b).i = s.i := rfl
@[simp] theorem State.setDt_pc (b : Byte) : (s.setDt b).pc = s.pc := rfl
@[simp] theorem State.setDt_stack (b : Byte) : (s.setDt b).stack = s.stack := rfl
@[simp] theorem State.setDt_sp (b : Byte) : (s.setDt b).sp = s.sp := rfl
@[simp] theorem State.setDt_dt (b : Byte) : (s.setDt b).dt = b := rfl
@[simp] theorem State.setDt_st (b : Byte) : (s.setDt b).st = s.st := rfl
@[simp] theorem State.setDt_keys (b : Byte) : (s.setDt b).keys = s.keys := rfl
@[simp] theorem State.setDt_frame (b : Byte) : (s.setDt b).frame = s.frame := rfl
@[simp] theorem State.setDt_mem (b : Byte) : (s.setDt b).mem = s.mem := rfl
@[simp] theorem State.setDt_err (b : Byte) : (s.setDt b).err = s.err := rfl
@[simp] theorem State.setDt_drawn (b : Byte) : (s.setDt b).drawn = s.drawn := rfl
@[simp] theorem State.setDt_loadOpen (b : Byte) : (s.setDt b).loadOpen = s.loadOpen := rfl

@[simp] theorem State.setSt_v (b : Byte) : (s.setSt b).v = s.v := rfl
@[simp] theorem State.setSt_i (b : Byte) : (s.setSt b).i = s.i := rfl
@[simp] theorem State.setSt_pc (b : Byte) : (s.setSt b).pc = s.pc := rfl
@[simp] theorem State.setSt_stack (b : Byte) : (s.setSt b).stack = s.stack := rfl
@[simp] theorem State.setSt_sp (b : Byte) : (s.setSt b).sp = s.sp := rfl
@[simp] theorem State.setSt_dt (b : Byte) : (s.setSt b).dt = s.dt := rfl
@[simp] theorem State.setSt_st (b : Byte) : (s.setSt b).st = b := rfl
@[simp] theorem State.setSt_keys (b : Byte) : (s.setSt b).keys = s.keys := rfl
@[simp] theorem State.setSt_frame (b : Byte) : (s.setSt b).frame = s.frame := rfl
@[simp] theorem State.setSt_mem (b : Byte) : (s.setSt b).mem = s.mem := rfl
@[simp] theorem State.setSt_err (b : Byte) : (s.setSt b).err = s.err := rfl
@[simp] theorem State.setSt_drawn (b : Byte) : (s.setSt b).drawn = s.drawn := rfl
@[simp] theorem State.setSt_loadOpen (b : Byte) : (s.setSt b).loadOpen = s.loadOpen := rfl

@[simp] theorem State.raise_v (e : DefinedError) : (s.raise e).v = s.v := rfl
@[simp] theorem State.raise_i (e : DefinedError) : (s.raise e).i = s.i := rfl
@[simp] theorem State.raise_pc (e : DefinedError) : (s.raise e).pc = s.pc := rfl
@[simp] theorem State.raise_stack (e : DefinedError) : (s.raise e).stack = s.stack := rfl
@[simp] theorem State.raise_sp (e : DefinedError) : (s.raise e).sp = s.sp := rfl
@[simp] theorem State.raise_dt (e : DefinedError) : (s.raise e).dt = s.dt := rfl
@[simp] theorem State.raise_st (e : DefinedError) : (s.raise e).st = s.st := rfl
@[simp] theorem State.raise_keys (e : DefinedError) : (s.raise e).keys = s.keys := rfl
@[simp] theorem State.raise_frame (e : DefinedError) : (s.raise e).frame = s.frame := rfl
@[simp] theorem State.raise_mem (e : DefinedError) : (s.raise e).mem = s.mem := rfl
@[simp] theorem State.raise_err (e : DefinedError) : (s.raise e).err = some e := rfl
@[simp] theorem State.raise_drawn (e : DefinedError) : (s.raise e).drawn = s.drawn := rfl
@[simp] theorem State.raise_loadOpen (e : DefinedError) : (s.raise e).loadOpen = s.loadOpen := rfl

@[simp] theorem State.setFrame_v (f : Frame) : (s.setFrame f).v = s.v := rfl
@[simp] theorem State.setFrame_i (f : Frame) : (s.setFrame f).i = s.i := rfl
@[simp] theorem State.setFrame_pc (f : Frame) : (s.setFrame f).pc = s.pc := rfl
@[simp] theorem State.setFrame_stack (f : Frame) : (s.setFrame f).stack = s.stack := rfl
@[simp] theorem State.setFrame_sp (f : Frame) : (s.setFrame f).sp = s.sp := rfl
@[simp] theorem State.setFrame_dt (f : Frame) : (s.setFrame f).dt = s.dt := rfl
@[simp] theorem State.setFrame_st (f : Frame) : (s.setFrame f).st = s.st := rfl
@[simp] theorem State.setFrame_keys (f : Frame) : (s.setFrame f).keys = s.keys := rfl
@[simp] theorem State.setFrame_frame (f : Frame) : (s.setFrame f).frame = f := rfl
@[simp] theorem State.setFrame_mem (f : Frame) : (s.setFrame f).mem = s.mem := rfl
@[simp] theorem State.setFrame_err (f : Frame) : (s.setFrame f).err = s.err := rfl
@[simp] theorem State.setFrame_drawn (f : Frame) : (s.setFrame f).drawn = s.drawn := rfl
@[simp] theorem State.setFrame_loadOpen (f : Frame) : (s.setFrame f).loadOpen = s.loadOpen := rfl

@[simp] theorem State.setFlag_i (c : Bool) : (s.setFlag c).i = s.i := rfl
@[simp] theorem State.setFlag_pc (c : Bool) : (s.setFlag c).pc = s.pc := rfl
@[simp] theorem State.setFlag_stack (c : Bool) : (s.setFlag c).stack = s.stack := rfl
@[simp] theorem State.setFlag_sp (c : Bool) : (s.setFlag c).sp = s.sp := rfl
@[simp] theorem State.setFlag_dt (c : Bool) : (s.setFlag c).dt = s.dt := rfl
@[simp] theorem State.setFlag_st (c : Bool) : (s.setFlag c).st = s.st := rfl
@[simp] theorem State.setFlag_keys (c : Bool) : (s.setFlag c).keys = s.keys := rfl
@[simp] theorem State.setFlag_frame (c : Bool) : (s.setFlag c).frame = s.frame := rfl
@[simp] theorem State.setFlag_mem (c : Bool) : (s.setFlag c).mem = s.mem := rfl
@[simp] theorem State.setFlag_err (c : Bool) : (s.setFlag c).err = s.err := rfl
@[simp] theorem State.setFlag_drawn (c : Bool) : (s.setFlag c).drawn = s.drawn := rfl
@[simp] theorem State.setFlag_loadOpen (c : Bool) : (s.setFlag c).loadOpen = s.loadOpen := rfl

@[simp] theorem State.setResult_i (x : Reg) (b : Byte) (c : Bool) : (s.setResult x b c).i = s.i := rfl
@[simp] theorem State.setResult_pc (x : Reg) (b : Byte) (c : Bool) : (s.setResult x b c).pc = s.pc := rfl
@[simp] theorem State.setResult_stack (x : Reg) (b : Byte) (c : Bool) : (s.setResult x b c).stack = s.stack := rfl
@[simp] theorem State.setResult_sp (x : Reg) (b : Byte) (c : Bool) : (s.setResult x b c).sp = s.sp := rfl
@[simp] theorem State.setResult_dt (x : Reg) (b : Byte) (c : Bool) : (s.setResult x b c).dt = s.dt := rfl
@[simp] theorem State.setResult_st (x : Reg) (b : Byte) (c : Bool) : (s.setResult x b c).st = s.st := rfl
@[simp] theorem State.setResult_keys (x : Reg) (b : Byte) (c : Bool) : (s.setResult x b c).keys = s.keys := rfl
@[simp] theorem State.setResult_frame (x : Reg) (b : Byte) (c : Bool) : (s.setResult x b c).frame = s.frame := rfl
@[simp] theorem State.setResult_mem (x : Reg) (b : Byte) (c : Bool) : (s.setResult x b c).mem = s.mem := rfl
@[simp] theorem State.setResult_err (x : Reg) (b : Byte) (c : Bool) : (s.setResult x b c).err = s.err := rfl
@[simp] theorem State.setResult_drawn (x : Reg) (b : Byte) (c : Bool) : (s.setResult x b c).drawn = s.drawn := rfl
@[simp] theorem State.setResult_loadOpen (x : Reg) (b : Byte) (c : Bool) : (s.setResult x b c).loadOpen = s.loadOpen := rfl

@[simp] theorem State.setCanvas_i (c : Canvas) : (s.setCanvas c).i = s.i := rfl
@[simp] theorem State.setCanvas_pc (c : Canvas) : (s.setCanvas c).pc = s.pc := rfl
@[simp] theorem State.setCanvas_stack (c : Canvas) : (s.setCanvas c).stack = s.stack := rfl
@[simp] theorem State.setCanvas_sp (c : Canvas) : (s.setCanvas c).sp = s.sp := rfl
@[simp] theorem State.setCanvas_dt (c : Canvas) : (s.setCanvas c).dt = s.dt := rfl
@[simp] theorem State.setCanvas_st (c : Canvas) : (s.setCanvas c).st = s.st := rfl
@[simp] theorem State.setCanvas_keys (c : Canvas) : (s.setCanvas c).keys = s.keys := rfl
@[simp] theorem State.setCanvas_frame (c : Canvas) : (s.setCanvas c).frame = c.1 := rfl
@[simp] theorem State.setCanvas_mem (c : Canvas) : (s.setCanvas c).mem = s.mem := rfl
@[simp] theorem State.setCanvas_err (c : Canvas) : (s.setCanvas c).err = s.err := rfl
@[simp] theorem State.setCanvas_drawn (c : Canvas) : (s.setCanvas c).drawn = s.drawn := rfl
@[simp] theorem State.setCanvas_loadOpen (c : Canvas) : (s.setCanvas c).loadOpen = s.loadOpen := rfl

@[simp] theorem State.advance_v : (s.advance).v = s.v := rfl
@[simp] theorem State.advance_i : (s.advance).i = s.i := rfl
@[simp] theorem State.advance_pc : (s.advance).pc = s.pc + 2 := rfl
@[simp] theorem State.advance_stack : (s.advance).stack = s.stack := rfl
@[simp] theorem State.advance_sp : (s.advance).sp = s.sp := rfl
@[simp] theorem State.advance_dt : (s.advance).dt = s.dt := rfl
@[simp] theorem State.advance_st : (s.advance).st = s.st := rfl
@[simp] theorem State.advance_keys : (s.advance).keys = s.keys := rfl
@[simp] theorem State.advance_frame : (s.advance).frame = s.frame := rfl
@[simp] theorem State.advance_mem : (s.advance).mem = s.mem := rfl
@[simp] theorem State.advance_err : (s.advance).err = s.err := rfl
@[simp] theorem State.advance_drawn : (s.advance).drawn = s.drawn := rfl
@[simp] theorem State.advance_loadOpen : (s.advance).loadOpen = s.loadOpen := rfl

@[simp] theorem State.tick_v : (s.tick).v = s.v := rfl
@[simp] theorem State.tick_i : (s.tick).i = s.i := rfl
@[simp] theorem State.tick_pc : (s.tick).pc = s.pc := rfl
@[simp] theorem State.tick_stack : (s.tick).stack = s.stack := rfl
@[simp] theorem State.tick_sp : (s.tick).sp = s.sp := rfl
@[simp] theorem State.tick_dt : (s.tick).dt = tickDown s.dt := rfl
@[simp] theorem State.tick_st : (s.tick).st = tickDown s.st := rfl
@[simp] theorem State.tick_keys : (s.tick).keys = s.keys := rfl
@[simp] theorem State.tick_frame : (s.tick).frame = s.frame := rfl
@[simp] theorem State.tick_mem : (s.tick).mem = s.mem := rfl
@[simp] theorem State.tick_err : (s.tick).err = s.err := rfl
@[simp] theorem State.tick_drawn : (s.tick).drawn = s.drawn := rfl
@[simp] theorem State.tick_loadOpen : (s.tick).loadOpen = s.loadOpen := rfl

/-! ### The skip changes `pc` alone -/

@[simp] theorem State.skipIf_v (c : Bool) : (s.skipIf c).v = s.v := by cases c <;> rfl
@[simp] theorem State.skipIf_i (c : Bool) : (s.skipIf c).i = s.i := by cases c <;> rfl
@[simp] theorem State.skipIf_pc (c : Bool) : (s.skipIf c).pc = if c then s.pc + 2 else s.pc := by cases c <;> rfl
@[simp] theorem State.skipIf_stack (c : Bool) : (s.skipIf c).stack = s.stack := by cases c <;> rfl
@[simp] theorem State.skipIf_sp (c : Bool) : (s.skipIf c).sp = s.sp := by cases c <;> rfl
@[simp] theorem State.skipIf_dt (c : Bool) : (s.skipIf c).dt = s.dt := by cases c <;> rfl
@[simp] theorem State.skipIf_st (c : Bool) : (s.skipIf c).st = s.st := by cases c <;> rfl
@[simp] theorem State.skipIf_keys (c : Bool) : (s.skipIf c).keys = s.keys := by cases c <;> rfl
@[simp] theorem State.skipIf_frame (c : Bool) : (s.skipIf c).frame = s.frame := by cases c <;> rfl
@[simp] theorem State.skipIf_mem (c : Bool) : (s.skipIf c).mem = s.mem := by cases c <;> rfl
@[simp] theorem State.skipIf_err (c : Bool) : (s.skipIf c).err = s.err := by cases c <;> rfl
@[simp] theorem State.skipIf_drawn (c : Bool) : (s.skipIf c).drawn = s.drawn := by cases c <;> rfl
@[simp] theorem State.skipIf_loadOpen (c : Bool) : (s.skipIf c).loadOpen = s.loadOpen := by cases c <;> rfl

/-! ### Writing a run of registers changes registers alone -/

@[simp] theorem State.setRegs_i (k : Nat) (bs : List Byte) : (s.setRegs k bs).i = s.i := by
  induction bs generalizing s k with
  | nil => rfl
  | cons b bs ih => simp [State.setRegs, ih]
@[simp] theorem State.setRegs_pc (k : Nat) (bs : List Byte) : (s.setRegs k bs).pc = s.pc := by
  induction bs generalizing s k with
  | nil => rfl
  | cons b bs ih => simp [State.setRegs, ih]
@[simp] theorem State.setRegs_stack (k : Nat) (bs : List Byte) : (s.setRegs k bs).stack = s.stack := by
  induction bs generalizing s k with
  | nil => rfl
  | cons b bs ih => simp [State.setRegs, ih]
@[simp] theorem State.setRegs_sp (k : Nat) (bs : List Byte) : (s.setRegs k bs).sp = s.sp := by
  induction bs generalizing s k with
  | nil => rfl
  | cons b bs ih => simp [State.setRegs, ih]
@[simp] theorem State.setRegs_dt (k : Nat) (bs : List Byte) : (s.setRegs k bs).dt = s.dt := by
  induction bs generalizing s k with
  | nil => rfl
  | cons b bs ih => simp [State.setRegs, ih]
@[simp] theorem State.setRegs_st (k : Nat) (bs : List Byte) : (s.setRegs k bs).st = s.st := by
  induction bs generalizing s k with
  | nil => rfl
  | cons b bs ih => simp [State.setRegs, ih]
@[simp] theorem State.setRegs_keys (k : Nat) (bs : List Byte) : (s.setRegs k bs).keys = s.keys := by
  induction bs generalizing s k with
  | nil => rfl
  | cons b bs ih => simp [State.setRegs, ih]
@[simp] theorem State.setRegs_frame (k : Nat) (bs : List Byte) : (s.setRegs k bs).frame = s.frame := by
  induction bs generalizing s k with
  | nil => rfl
  | cons b bs ih => simp [State.setRegs, ih]
@[simp] theorem State.setRegs_mem (k : Nat) (bs : List Byte) : (s.setRegs k bs).mem = s.mem := by
  induction bs generalizing s k with
  | nil => rfl
  | cons b bs ih => simp [State.setRegs, ih]
@[simp] theorem State.setRegs_err (k : Nat) (bs : List Byte) : (s.setRegs k bs).err = s.err := by
  induction bs generalizing s k with
  | nil => rfl
  | cons b bs ih => simp [State.setRegs, ih]
@[simp] theorem State.setRegs_drawn (k : Nat) (bs : List Byte) : (s.setRegs k bs).drawn = s.drawn := by
  induction bs generalizing s k with
  | nil => rfl
  | cons b bs ih => simp [State.setRegs, ih]
@[simp] theorem State.setRegs_loadOpen (k : Nat) (bs : List Byte) : (s.setRegs k bs).loadOpen = s.loadOpen := by
  induction bs generalizing s k with
  | nil => rfl
  | cons b bs ih => simp [State.setRegs, ih]

/-! ### A draw advances the count alone -/

@[simp] theorem State.draw_v : s.draw.2.v = s.v := rfl
@[simp] theorem State.draw_i : s.draw.2.i = s.i := rfl
@[simp] theorem State.draw_pc : s.draw.2.pc = s.pc := rfl
@[simp] theorem State.draw_stack : s.draw.2.stack = s.stack := rfl
@[simp] theorem State.draw_sp : s.draw.2.sp = s.sp := rfl
@[simp] theorem State.draw_dt : s.draw.2.dt = s.dt := rfl
@[simp] theorem State.draw_st : s.draw.2.st = s.st := rfl
@[simp] theorem State.draw_keys : s.draw.2.keys = s.keys := rfl
@[simp] theorem State.draw_frame : s.draw.2.frame = s.frame := rfl
@[simp] theorem State.draw_mem : s.draw.2.mem = s.mem := rfl
@[simp] theorem State.draw_err : s.draw.2.err = s.err := rfl
@[simp] theorem State.draw_drawn : s.draw.2.drawn = s.drawn + 1 := rfl
@[simp] theorem State.draw_loadOpen : s.draw.2.loadOpen = s.loadOpen := rfl
@[simp] theorem State.draw_fst : s.draw.1 = Config.drawByte s.drawn := rfl

/-- The pair form of the flag-writing instructions is `setResult` (R120). -/
@[simp] theorem State.setPair_eq (x : Reg) (rf : Byte × Bool) : s.setPair x rf = s.setResult x rf.1 rf.2 := rfl

/-! ### Registers -/

variable {s}

/-- Two states with the same registers, field by field, have the same register file. -/
theorem State.reg_ext {t : State} (h : ∀ r : Reg, t.reg r = s.reg r) : t.v = s.v := by
  apply Vector.ext
  intro k hk
  have := h (BitVec.ofNat 4 k)
  simpa [State.reg, Nat.mod_eq_of_lt hk] using this

theorem State.reg_setReg (x r : Reg) (b : Byte) : (s.setReg x b).reg r = if r = x then b else s.reg r := by
  unfold State.reg State.setReg
  by_cases h : r = x
  · subst h; simp
  · have : x.toNat ≠ r.toNat := fun e => h (BitVec.eq_of_toNat_eq e.symm)
    simp [h, this]

@[simp] theorem State.reg_setReg_self (x : Reg) (b : Byte) : (s.setReg x b).reg x = b := by simp [State.reg_setReg]

theorem State.reg_setReg_other {x r : Reg} (h : r ≠ x) (b : Byte) : (s.setReg x b).reg r = s.reg r := by
  simp [State.reg_setReg, h]

theorem State.reg_setFlag (r : Reg) (c : Bool) :
    (s.setFlag c).reg r = if r = 0xF then (if c then 1 else 0) else s.reg r := State.reg_setReg _ _ _

/-- The flag is what remains in `VF`, whatever `x` is (R120). -/
theorem State.reg_setResult (x r : Reg) (b : Byte) (c : Bool) :
    (s.setResult x b c).reg r = if r = 0xF then (if c then 1 else 0) else if r = x then b else s.reg r := by
  rw [State.setResult, State.reg_setFlag, State.reg_setReg]

@[simp] theorem State.reg_setI (a : Word) (r : Reg) : (s.setI a).reg r = s.reg r := rfl
@[simp] theorem State.reg_setPc (a : Word) (r : Reg) : (s.setPc a).reg r = s.reg r := rfl
@[simp] theorem State.reg_setDt (b : Byte) (r : Reg) : (s.setDt b).reg r = s.reg r := rfl
@[simp] theorem State.reg_setSt (b : Byte) (r : Reg) : (s.setSt b).reg r = s.reg r := rfl
@[simp] theorem State.reg_raise (e : DefinedError) (r : Reg) : (s.raise e).reg r = s.reg r := rfl
@[simp] theorem State.reg_setFrame (f : Frame) (r : Reg) : (s.setFrame f).reg r = s.reg r := rfl
@[simp] theorem State.reg_advance (r : Reg) : s.advance.reg r = s.reg r := rfl
@[simp] theorem State.reg_tick (r : Reg) : s.tick.reg r = s.reg r := rfl
@[simp] theorem State.reg_draw (r : Reg) : s.draw.2.reg r = s.reg r := rfl
@[simp] theorem State.reg_skipIf (c : Bool) (r : Reg) : (s.skipIf c).reg r = s.reg r := by cases c <;> rfl

/-- Writing the bytes `bs` from register `k` on: register `k + j` holds byte `j`, every other register is unchanged (R146). -/
theorem State.reg_setRegs (k : Nat) (bs : List Byte) (hk : k + bs.length ≤ 16) (r : Reg) :
    (s.setRegs k bs).reg r =
      if k ≤ r.toNat ∧ r.toNat < k + bs.length then bs.getD (r.toNat - k) 0 else s.reg r := by
  induction bs generalizing s k with
  | nil => rw [State.setRegs, if_neg (by simp only [List.length_nil]; omega)]
  | cons b bs ih =>
    simp only [List.length_cons] at hk
    rw [State.setRegs, ih (k + 1) (by omega), State.reg_setReg]
    by_cases hr : r.toNat = k
    · have : r = BitVec.ofNat 4 k := by rw [← hr]; simp
      simp [← this, hr]
    · have : r ≠ BitVec.ofNat 4 k := by
        intro e; apply hr; rw [e, BitVec.toNat_ofNat]; exact Nat.mod_eq_of_lt (by omega)
      simp only [this, if_false, List.length_cons]
      by_cases hlt : k + 1 ≤ r.toNat ∧ r.toNat < k + 1 + bs.length
      · have e : r.toNat - k = (r.toNat - (k + 1)) + 1 := by omega
        rw [if_pos hlt, if_pos (by omega), e, List.getD_cons_succ]
      · rw [if_neg hlt, if_neg (by omega)]

/-- The values of `V[0]` to `V[n-1]`: `n` bytes, byte `k` that of `V[k]` (R145). -/
@[simp] theorem State.regs_length (n : Nat) : (s.regs n).length = n := by simp [State.regs]

theorem State.regs_getElem {n k : Nat} (h : k < (s.regs n).length) : (s.regs n)[k] = s.reg (BitVec.ofNat 4 k) := by
  simp [State.regs]

end Sys2Proof.Machine
end

