-- ==== Sys2Proof/Laws/Ops.lean ====
section
/-! SUPPORT. What each shared operation can do, said once: raising and committing, the stack, block accesses, key scans, the
fetch and the end of a Step. -/

namespace Sys2Proof.Machine

variable {s t : State}

/-! ### Committing and raising (R97, R179) -/

@[simp] theorem commit_ok : commit s (.ok t) = .next t := rfl
@[simp] theorem commit_error (e : DefinedError) : commit s (.error e) = .next (s.raise e) := rfl

/-- A handler that can raise always answers a next state: its own, or the state it was given with the error latched. -/
theorem commit_cases (r : Except DefinedError State) :
    (∃ t, r = .ok t ∧ commit s r = .next t) ∨ (∃ e, r = .error e ∧ commit s r = .next (s.raise e)) := by
  cases r with
  | ok t => exact .inl ⟨t, rfl, rfl⟩
  | error e => exact .inr ⟨e, rfl, rfl⟩

/-! ### The call stack (R101, R103) -/

theorem pushPc_of_lt (h : s.sp.val < 16) :
    pushPc s = .ok { s with stack := s.stack.set s.sp.val s.pc h, sp := ⟨s.sp.val + 1, by omega⟩ } := by
  rw [pushPc, dif_pos h]

theorem pushPc_of_full (h : s.sp.val = 16) : pushPc s = .error .stackOverflow := by
  rw [pushPc, dif_neg (by omega)]

theorem popPc_of_pos (h : 0 < s.sp.val) :
    popPc s = .ok { s with sp := ⟨s.sp.val - 1, by omega⟩, pc := s.stack[s.sp.val - 1]'(by omega) } := by
  rw [popPc, dif_pos h]

theorem popPc_of_empty (h : s.sp.val = 0) : popPc s = .error .stackUnderflow := by
  rw [popPc, dif_neg (by omega)]

/-! ### Block accesses (R56, R172) -/

theorem memRead_inside {a : Nat} (h : a ≤ 0xFFF) : memRead s a = .ok (s.mem.read a) := by
  rw [memRead, if_neg (by omega)]

theorem memRead_outside {a : Nat} (h : 0xFFF < a) : memRead s a = .error (.memoryOutOfBounds a) := by
  rw [memRead, if_pos h]

theorem memWrite_inside {a : Nat} (h : a ≤ 0xFFF) (b : Byte) :
    memWrite s a b = .ok { s with mem := s.mem.write a b } := by
  rw [memWrite, if_neg (by omega)]

theorem memWrite_outside {a : Nat} (h : 0xFFF < a) (b : Byte) : memWrite s a b = .error (.memoryOutOfBounds a) := by
  rw [memWrite, if_pos h]

/-- A block read that fits gives the bytes in ascending order. -/
theorem readBlock_inside {a n : Nat} (h : n = 0 ∨ a + n ≤ 0x1000) :
    readBlock s a n = .ok ((List.range n).map (fun k => s.mem.read (a + k))) := by
  induction n generalizing a with
  | zero => rfl
  | succ n ih =>
    have e : (fun k => s.mem.read (a + 1 + k)) = (fun k => s.mem.read (a + (k + 1))) := by
      funext k; rw [Nat.add_assoc, Nat.add_comm 1 k]
    rw [readBlock, memRead_inside (by omega), ih (by omega), List.range_succ_eq_map, e]
    simp [Except.map, List.map_map, Function.comp_def]

/-- A block read that does not fit raises the lowest address out of range, max(I, 0x1000) (R172). -/
theorem readBlock_outside {a n : Nat} (hn : 0 < n) (h : 0x1000 < a + n) :
    readBlock s a n = .error (.memoryOutOfBounds (max a 0x1000)) := by
  induction n generalizing a with
  | zero => omega
  | succ n ih =>
    rw [readBlock]
    by_cases ha : 0xFFF < a
    · rw [memRead_outside ha, show max a 0x1000 = a by omega]
    · rw [memRead_inside (by omega), ih (by omega) (by omega), show max (a + 1) 0x1000 = max a 0x1000 by omega]
      rfl

/-- A block store that fits writes the bytes in ascending order and changes memory alone. -/
theorem writeBlock_inside {a : Nat} {bs : List Byte} (h : bs = [] ∨ a + bs.length ≤ 0x1000) :
    writeBlock s a bs = .ok { s with mem := s.mem.writeBytes a bs } := by
  induction bs generalizing s a with
  | nil => rfl
  | cons b bs ih =>
    have h' : a + (bs.length + 1) ≤ 0x1000 := by simpa using h
    have hb : bs = [] ∨ a + 1 + bs.length ≤ 0x1000 := .inr (by omega)
    rw [writeBlock, memWrite_inside (by omega)]
    exact ih hb

/-- A block store that does not fit raises the lowest address out of range (R172). -/
theorem writeBlock_outside {a : Nat} {bs : List Byte} (hn : bs ≠ []) (h : 0x1000 < a + bs.length) :
    writeBlock s a bs = .error (.memoryOutOfBounds (max a 0x1000)) := by
  induction bs generalizing s a with
  | nil => exact absurd rfl hn
  | cons b bs ih =>
    simp only [List.length_cons] at h
    rw [writeBlock]
    by_cases ha : 0xFFF < a
    · rw [memWrite_outside ha, show max a 0x1000 = a by omega]
    · have hb : bs ≠ [] := by rintro rfl; simp at h; omega
      rw [memWrite_inside (by omega), show max a 0x1000 = max (a + 1) 0x1000 by omega]
      exact ih hb (by omega)

/-! ### Keys (R160 to R162) -/

theorem keyIndex_inside {x : Reg} (h : (s.reg x).toNat ≤ 15) : keyIndex s x = .ok ((s.reg x).setWidth 4) := by
  rw [keyIndex, if_neg (by omega)]

theorem keyIndex_outside {x : Reg} (h : 15 < (s.reg x).toNat) :
    keyIndex s x = .error (.keyIndexOutOfRange (s.reg x)) := by
  rw [keyIndex, if_pos h]

theorem mem_keyOrder (k : Reg) : k ∈ keyOrder := by revert k; decide

theorem keyOrder_sorted : keyOrder.Pairwise (fun a b => a.toNat < b.toNat) := by decide

/-- The scan finds nothing exactly when no key is pressed. -/
theorem firstKey_eq_none : s.firstKey = none ↔ ∀ k, s.key k = false := by
  simp [State.firstKey, mem_keyOrder]

/-- What the scan finds is pressed, and no lower key is. -/
theorem firstKey_eq_some {k : Reg} (h : s.firstKey = some k) :
    s.key k = true ∧ ∀ j : Reg, j.toNat < k.toNat → s.key j = false := by
  obtain ⟨hk, as, bs, hsplit, hfirst⟩ := List.find?_eq_some_iff_append.1 h
  refine ⟨hk, fun j hj => ?_⟩
  have hs := keyOrder_sorted
  have hmem := mem_keyOrder j
  rw [hsplit] at hs hmem
  rw [List.pairwise_append, List.pairwise_cons] at hs
  rcases List.mem_append.1 hmem with hja | hjb
  · simpa using hfirst j hja
  · rcases List.mem_cons.1 hjb with rfl | hjb
    · omega
    · have := hs.2.1.1 j hjb; omega

/-! ### Fetch and the end of a Step (R92, R96, R97) -/

theorem fetch_inside (h : s.pc.toNat ≤ 0xFFE) : fetch s = .ok (s.mem.wordAt s.pc.toNat) := by
  rw [fetch, if_neg (by omega)]

theorem fetch_outside (h : 0xFFE < s.pc.toNat) : fetch s = .error (.fetchOutOfBounds s.pc) := by
  rw [fetch, if_pos h]

theorem closeStep_ok {entry : State} (h : t.err = none) :
    closeStep entry (.next t) = .next { t.tick with loadOpen := false } := by
  simp [closeStep, h]

theorem closeStep_raised {entry : State} {e : DefinedError} (h : t.err = some e) :
    closeStep entry (.next t) = .next (entry.raise e) := by
  simp [closeStep, h]

theorem step_latched {e : DefinedError} (h : s.err = some e) : step s = .fault (.latched e) := by
  simp [step, h]

theorem step_running (h : s.err = none) : step s = cycle s := by
  simp [step, h]

theorem cycle_inside (h : s.pc.toNat ≤ 0xFFE) :
    cycle s = closeStep s (runWord (s.mem.wordAt s.pc.toNat) s.advance) := by
  simp [cycle, fetch_inside h]

theorem cycle_outside (h : 0xFFE < s.pc.toNat) : cycle s = .next (s.raise (.fetchOutOfBounds s.pc)) := by
  simp [cycle, fetch_outside h]

end Sys2Proof.Machine
end

