-- ==== Sys2Proof/Laws/Sprite.lean ====
section
/-! SUPPORT. What a draw does to every pixel and to the collision flag, whatever the order of its loops
(spec/45_sprite.md R150, R151). -/

namespace Sys2Proof.Machine

/-! ### One pixel -/

theorem Frame.pixel_toggle (f : Frame) (x px : Fin 64) (y py : Fin 32) :
    (f.toggle x y).pixel px py = if px = x ∧ py = y then !f.pixel x y else f.pixel px py := by
  unfold Frame.pixel Frame.toggle
  by_cases hy : py = y
  · subst hy
    by_cases hx : px = x
    · subst hx; simp
    · have : x.val ≠ px.val := fun e => hx (Fin.ext e.symm)
      simp [hx, Vector.getElem_set_ne _ _ this]
  · have : y.val ≠ py.val := fun e => hy (Fin.ext e.symm)
    simp [hy, Vector.getElem_set_ne _ _ this]

@[simp] theorem Frame.pixel_blank (px : Fin 64) (py : Fin 32) : Frame.blank.pixel px py = false := by
  simp [Frame.pixel, Frame.blank]

/-- Two framebuffers with the same pixels are the same. -/
theorem Frame.ext_pixel {f g : Frame} (h : ∀ px py, f.pixel px py = g.pixel px py) : f = g := by
  apply Vector.ext
  intro y hy
  apply Vector.ext
  intro x hx
  exact h ⟨x, hx⟩ ⟨y, hy⟩

/-- The eight columns of a sprite row are different pixels (R151). -/
theorem spriteColumn_inj {x0 : Byte} {a b : Nat} (ha : a < 8) (hb : b < 8)
    (h : spriteColumn x0 a = spriteColumn x0 b) : a = b := by
  have := congrArg Fin.val h
  simp only [spriteColumn] at this
  omega

/-- The rows of a sprite are different pixel rows (R151). -/
theorem spriteRow_inj {y0 : Byte} {a b : Nat} (ha : a < 32) (hb : b < 32) (h : spriteRow y0 a = spriteRow y0 b) :
    a = b := by
  have := congrArg Fin.val h
  simp only [spriteRow] at this
  omega

/-! ### One row -/

/-- The columns of `cols` whose bit is set and which fall on column `px`. -/
def RowCovers (x0 b : Byte) (cols : List Nat) (px : Fin 64) : Prop :=
  ∃ col ∈ cols, b.getLsbD (7 - col) = true ∧ px = spriteColumn x0 col

/-- Drawing some columns of a row: `drawRow` is this with all eight. -/
def drawColumns (x0 : Byte) (py : Fin 32) (b : Byte) (cols : List Nat) (c : Canvas) : Canvas :=
  cols.foldl (fun acc col => drawPixel (b.getLsbD (7 - col)) (spriteColumn x0 col) py acc) c

theorem drawPixel_pixel (bit : Bool) (x px : Fin 64) (y py : Fin 32) (c : Canvas) :
    Frame.pixel (drawPixel bit x y c).1 px py =
      if bit = true ∧ px = x ∧ py = y then !c.1.pixel px py else c.1.pixel px py := by
  unfold drawPixel
  cases bit
  · simp
  · simp only [if_true, Frame.pixel_toggle, true_and]
    split
    · next h => rw [h.1, h.2]
    · rfl

theorem drawPixel_flag (bit : Bool) (x : Fin 64) (y : Fin 32) (c : Canvas) :
    (drawPixel bit x y c).2 = (c.2 || (bit && c.1.pixel x y)) := by
  unfold drawPixel; cases bit <;> simp

theorem drawColumns_other_row {x0 b : Byte} {y py : Fin 32} (hy : py ≠ y) (cols : List Nat) (c : Canvas)
    (px : Fin 64) : Frame.pixel (drawColumns x0 y b cols c).1 px py = c.1.pixel px py := by
  induction cols generalizing c with
  | nil => rfl
  | cons a cols ih =>
    rw [drawColumns, List.foldl_cons]
    exact (ih _).trans (by rw [drawPixel_pixel, if_neg (fun h => hy h.2.2)])

/-- After drawing columns that are different pixels: the covered pixels of the row are inverted, the others are not, and the
flag tells whether a covered one was on. -/
theorem drawColumns_spec {x0 b : Byte} {y : Fin 32} {cols : List Nat} (hlt : ∀ a ∈ cols, a < 8) (hnd : cols.Nodup)
    (c : Canvas) :
    (∀ px, RowCovers x0 b cols px → Frame.pixel (drawColumns x0 y b cols c).1 px y = !c.1.pixel px y) ∧
    (∀ px, ¬ RowCovers x0 b cols px → Frame.pixel (drawColumns x0 y b cols c).1 px y = c.1.pixel px y) ∧
    ((drawColumns x0 y b cols c).2 = true ↔
      c.2 = true ∨ ∃ px, RowCovers x0 b cols px ∧ c.1.pixel px y = true) := by
  induction cols generalizing c with
  | nil => simp [RowCovers, drawColumns]
  | cons a cols ih =>
    have hnd' := List.nodup_cons.1 hnd
    obtain ⟨ih1, ih2, ih3⟩ := ih (fun k hk => hlt k (List.mem_cons_of_mem _ hk)) hnd'.2
      (drawPixel (b.getLsbD (7 - a)) (spriteColumn x0 a) y c)
    have hcons : ∀ px, RowCovers x0 b (a :: cols) px ↔
        (b.getLsbD (7 - a) = true ∧ px = spriteColumn x0 a) ∨ RowCovers x0 b cols px := by
      intro px; simp [RowCovers]
    have hdisj : ∀ px, px = spriteColumn x0 a → ¬ RowCovers x0 b cols px := by
      rintro px rfl ⟨k, hk, -, he⟩
      have := spriteColumn_inj (hlt a List.mem_cons_self) (hlt k (List.mem_cons_of_mem _ hk)) he
      exact hnd'.1 (this ▸ hk)
    have hstep : drawColumns x0 y b (a :: cols) c =
        drawColumns x0 y b cols (drawPixel (b.getLsbD (7 - a)) (spriteColumn x0 a) y c) := rfl
    rw [hstep]
    refine ⟨fun px hpx => ?_, fun px hpx => ?_, ?_⟩
    · by_cases hc : RowCovers x0 b cols px
      · rw [ih1 px hc, drawPixel_pixel, if_neg (fun h => hdisj px h.2.1 hc)]
      · have ha := ((hcons px).1 hpx).resolve_right hc
        rw [ih2 px hc, drawPixel_pixel, if_pos ⟨ha.1, ha.2, rfl⟩]
    · rw [hcons] at hpx
      rw [ih2 px (fun h => hpx (.inr h)), drawPixel_pixel, if_neg (fun h => hpx (.inl ⟨h.1, h.2.1⟩))]
    · rw [ih3, drawPixel_flag]
      constructor
      · rintro (h | ⟨px, hpx, hon⟩)
        · rw [Bool.or_eq_true, Bool.and_eq_true] at h
          rcases h with h | ⟨hb, hon⟩
          · exact .inl h
          · exact .inr ⟨_, (hcons _).2 (.inl ⟨hb, rfl⟩), hon⟩
        · rw [drawPixel_pixel, if_neg (fun h => hdisj px h.2.1 hpx)] at hon
          exact .inr ⟨px, (hcons px).2 (.inr hpx), hon⟩
      · rintro (h | ⟨px, hpx, hon⟩)
        · exact .inl (by rw [h, Bool.true_or])
        · by_cases hc : RowCovers x0 b cols px
          · exact .inr ⟨px, hc, by rw [drawPixel_pixel, if_neg (fun h => hdisj px h.2.1 hc)]; exact hon⟩
          · have ha := ((hcons px).1 hpx).resolve_right hc
            rw [ha.2] at hon
            exact .inl (by rw [ha.1, hon]; simp)

/-! ### The whole sprite -/

/-- Some set bit of the rows `rows`, the first of them sprite row number `r`, falls on pixel (`px`, `py`). -/
def RowsCover (x0 y0 : Byte) (r : Nat) (rows : List Byte) (px : Fin 64) (py : Fin 32) : Prop :=
  ∃ k col : Nat, ∃ h : k < rows.length, col < 8 ∧ (rows[k]'h).getLsbD (7 - col) = true ∧
    px = spriteColumn x0 col ∧ py = spriteRow y0 (r + k)

theorem RowsCover_cons {x0 y0 b : Byte} {r : Nat} {rows : List Byte} {px : Fin 64} {py : Fin 32} :
    RowsCover x0 y0 r (b :: rows) px py ↔
      (RowCovers x0 b [0, 1, 2, 3, 4, 5, 6, 7] px ∧ py = spriteRow y0 r) ∨ RowsCover x0 y0 (r + 1) rows px py := by
  constructor
  · rintro ⟨k, col, hk, hcol, hbit, hx, hy⟩
    cases k with
    | zero => exact .inl ⟨⟨col, by simp; omega, hbit, hx⟩, hy⟩
    | succ k => exact .inr ⟨k, col, by simpa using hk, hcol, hbit, hx, by rw [hy]; congr 1; omega⟩
  · rintro (⟨⟨col, hmem, hbit, hx⟩, hy⟩ | ⟨k, col, hk, hcol, hbit, hx, hy⟩)
    · exact ⟨0, col, by simp, by simp at hmem; omega, hbit, hx, hy⟩
    · exact ⟨k + 1, col, by simpa using hk, hcol, hbit, hx, by rw [hy]; congr 1; omega⟩

/-- After drawing rows that are different pixel rows: every covered pixel is inverted, no other is, and the flag tells whether a
covered pixel was on. -/
theorem drawRows_spec {x0 y0 : Byte} {r : Nat} {rows : List Byte} (hr : r + rows.length ≤ 32) (c : Canvas) :
    (∀ px py, RowsCover x0 y0 r rows px py →
      Frame.pixel (drawRows x0 y0 r rows c).1 px py = !c.1.pixel px py) ∧
    (∀ px py, ¬ RowsCover x0 y0 r rows px py →
      Frame.pixel (drawRows x0 y0 r rows c).1 px py = c.1.pixel px py) ∧
    ((drawRows x0 y0 r rows c).2 = true ↔
      c.2 = true ∨ ∃ px py, RowsCover x0 y0 r rows px py ∧ c.1.pixel px py = true) := by
  induction rows generalizing r c with
  | nil => simp [RowsCover, drawRows]
  | cons b rows ih =>
    simp only [List.length_cons] at hr
    have hrow : drawRow x0 (spriteRow y0 r) b c =
      drawColumns x0 (spriteRow y0 r) b [0, 1, 2, 3, 4, 5, 6, 7] c := rfl
    obtain ⟨c1, c2, c3⟩ := drawColumns_spec (x0 := x0) (b := b) (y := spriteRow y0 r)
      (cols := [0, 1, 2, 3, 4, 5, 6, 7]) (by decide) (by decide) c
    obtain ⟨ih1, ih2, ih3⟩ := ih (r := r + 1) (by omega) (drawRow x0 (spriteRow y0 r) b c)
    rw [hrow] at ih1 ih2 ih3
    have hdisj : ∀ px py, RowsCover x0 y0 (r + 1) rows px py → py ≠ spriteRow y0 r := by
      rintro px py ⟨k, col, hk, -, -, -, rfl⟩ he
      have := spriteRow_inj (by omega) (by omega) he
      omega
    have hstep : drawRows x0 y0 r (b :: rows) c =
      drawRows x0 y0 (r + 1) rows (drawColumns x0 (spriteRow y0 r) b [0, 1, 2, 3, 4, 5, 6, 7] c) := rfl
    rw [hstep]
    refine ⟨fun px py h => ?_, fun px py h => ?_, ?_⟩
    · by_cases hc : RowsCover x0 y0 (r + 1) rows px py
      · rw [ih1 px py hc, drawColumns_other_row (hdisj px py hc)]
      · obtain ⟨h1, rfl⟩ := (RowsCover_cons.1 h).resolve_right hc
        rw [ih2 px _ hc, c1 px h1]
    · rw [RowsCover_cons, not_or] at h
      rw [ih2 px py h.2]
      by_cases hy : py = spriteRow y0 r
      · subst hy; exact c2 px (fun hc => h.1 ⟨hc, rfl⟩)
      · exact drawColumns_other_row hy _ _ px
    · rw [ih3, c3]
      constructor
      · rintro ((h | ⟨px, h, hon⟩) | ⟨px, py, h, hon⟩)
        · exact .inl h
        · exact .inr ⟨px, _, RowsCover_cons.2 (.inl ⟨h, rfl⟩), hon⟩
        · rw [drawColumns_other_row (hdisj px py h)] at hon
          exact .inr ⟨px, py, RowsCover_cons.2 (.inr h), hon⟩
      · rintro (h | ⟨px, py, h, hon⟩)
        · exact .inl (.inl h)
        · by_cases hc : RowsCover x0 y0 (r + 1) rows px py
          · exact .inr ⟨px, py, hc, by rw [drawColumns_other_row (hdisj px py hc)]; exact hon⟩
          · obtain ⟨h1, rfl⟩ := (RowsCover_cons.1 h).resolve_right hc
            exact .inl (.inr ⟨px, h1, hon⟩)

/-- The draw's own description of a covered pixel is that of the rows it reads (R150). -/
theorem spriteCovers_iff {s : State} {x y : Reg} {n : Nat} {px : Fin 64} {py : Fin 32} :
    SpriteCovers s x y n px py ↔
      RowsCover (s.reg x) (s.reg y) 0 ((List.range n).map (fun k => s.mem.read (s.i.toNat + k))) px py := by
  constructor
  · rintro ⟨row, col, hr, hc, hbit, hx, hy⟩
    exact ⟨row, col, by simpa using hr, hc, by simpa using hbit, Fin.ext hx, Fin.ext (by simpa [spriteRow] using hy)⟩
  · rintro ⟨row, col, hr, hc, hbit, rfl, rfl⟩
    exact ⟨row, col, by simpa using hr, hc, by simpa using hbit, rfl, by simp [spriteRow]⟩

end Sys2Proof.Machine
end

