-- ==== Sys2Proof/Laws/Exec.lean ====
section
/-! SUPPORT. What the handlers have in common: each ends by `commit` of an effect, and the effects of the shared block and
stack operations, read backwards. -/

namespace Sys2Proof.Machine

variable {s t : State}

/-- The state a handler makes, or the error it raises: `exec` is `commit` of this. -/
def effect (i : Instr) (s : State) : Except DefinedError State :=
  match i with
  | .cls _ => .ok (s.setFrame Frame.blank)
  | .ret _ => popPc s
  | .jp nnn => .ok (s.setPc (addrImm nnn))
  | .call nnn => (pushPc s).map (fun t => t.setPc (addrImm nnn))
  | .seKk x kk => .ok (s.skipIf (s.reg x == kk))
  | .sneKk x kk => .ok (s.skipIf (s.reg x != kk))
  | .seVy x y _ => .ok (s.skipIf (s.reg x == s.reg y))
  | .ldKk x kk => .ok (s.setReg x kk)
  | .addKk x kk => .ok (s.setReg x (addNoFlag (s.reg x) kk))
  | .ldVy x y => .ok (s.setReg x (s.reg y))
  | .orVy x y => .ok (s.setReg x (s.reg x ||| s.reg y))
  | .andVy x y => .ok (s.setReg x (s.reg x &&& s.reg y))
  | .xorVy x y => .ok (s.setReg x (s.reg x ^^^ s.reg y))
  | .addVy x y => .ok (s.setPair x (addCarry (s.reg x) (s.reg y)))
  | .subVy x y => .ok (s.setPair x (subNoBorrow (s.reg x) (s.reg y)))
  | .shr x _ => .ok (s.setPair x (shiftRight (s.reg x)))
  | .subnVy x y => .ok (s.setPair x (subNoBorrow (s.reg y) (s.reg x)))
  | .shl x _ => .ok (s.setPair x (shiftLeft (s.reg x)))
  | .sneVy x y _ => .ok (s.skipIf (s.reg x != s.reg y))
  | .ldI nnn => .ok (s.setI (addrImm nnn))
  | .jpV0 nnn => .ok (s.setPc (offsetTarget s nnn))
  | .rnd x kk => .ok (s.draw.2.setReg x (s.draw.1 &&& kk))
  | .drw x y n => (readBlock s (dataBase s) n.toNat).map
      (fun rows => s.setCanvas (drawSprite (s.reg x) (s.reg y) rows s.frame))
  | .skp x _ => (keyIndex s x).map (fun k => s.skipIf (s.key k))
  | .sknp x _ => (keyIndex s x).map (fun k => s.skipIf (!s.key k))
  | .ldVxDt x => .ok (s.setReg x s.dt)
  | .ldVxK x => match s.firstKey with
    | none => .ok (s.setPc (s.pc - 2))
    | some k => .ok (s.setReg x (k.setWidth 8))
  | .ldDtVx x => .ok (s.setDt (s.reg x))
  | .ldStVx x => .ok (s.setSt (s.reg x))
  | .addI x => .ok (s.setI (indexPlus s x))
  | .ldF x => .ok (s.setI (glyphAddr (s.reg x)))
  | .ldB x => writeBlock s (dataBase s) (bcdDigits (s.reg x))
  | .stRegs x => writeBlock s (dataBase s) (s.regs (x.toNat + 1))
  | .ldRegs x => (readBlock s (dataBase s) (x.toNat + 1)).map (fun bs => s.setRegs 0 bs)

/-- Every handler is `commit` of its effect: it answers the state it made, or the state it was given with the error latched. -/
theorem exec_eq_commit (i : Instr) (s : State) : exec i s = commit s (effect i s) := by
  cases i with
  | ldVxK x => simp only [exec, execLdVxK, effect]; cases s.firstKey <;> rfl
  | _ => rfl

/-- The inversion of a handler: what a next state of `exec` is. -/
theorem exec_cases {i : Instr} (h : exec i s = .next t) :
    effect i s = .ok t ∨ ∃ e, effect i s = .error e ∧ t = s.raise e := by
  rw [exec_eq_commit] at h
  rcases commit_cases (s := s) (effect i s) with ⟨u, hu, hc⟩ | ⟨e, he, hc⟩
  · rw [hc] at h; cases h; exact .inl hu
  · rw [hc] at h; cases h; exact .inr ⟨e, he, rfl⟩

/-- A block store that succeeded fitted, and changed memory alone. -/
theorem writeBlock_ok {a : Nat} {bs : List Byte} (h : writeBlock s a bs = .ok t) :
    (bs = [] ∨ a + bs.length ≤ 0x1000) ∧ t = { s with mem := s.mem.writeBytes a bs } := by
  by_cases hf : bs = [] ∨ a + bs.length ≤ 0x1000
  · rw [writeBlock_inside hf] at h; cases h; exact ⟨hf, rfl⟩
  · rw [not_or] at hf; rw [writeBlock_outside hf.1 (by omega)] at h; cases h

/-- A block store that failed did not fit, and reports the lowest address out of range. -/
theorem writeBlock_error {a : Nat} {bs : List Byte} {e : DefinedError} (h : writeBlock s a bs = .error e) :
    (bs ≠ [] ∧ 0x1000 < a + bs.length) ∧ e = .memoryOutOfBounds (max a 0x1000) := by
  by_cases hf : bs = [] ∨ a + bs.length ≤ 0x1000
  · rw [writeBlock_inside hf] at h; cases h
  · rw [not_or] at hf
    have hl : 0x1000 < a + bs.length := by omega
    rw [writeBlock_outside hf.1 hl] at h; cases h; exact ⟨⟨hf.1, hl⟩, rfl⟩

theorem readBlock_ok {a n : Nat} {bs : List Byte} (h : readBlock s a n = .ok bs) :
    (n = 0 ∨ a + n ≤ 0x1000) ∧ bs = (List.range n).map (fun k => s.mem.read (a + k)) := by
  by_cases hf : n = 0 ∨ a + n ≤ 0x1000
  · rw [readBlock_inside hf] at h; cases h; exact ⟨hf, rfl⟩
  · rw [readBlock_outside (by omega) (by omega)] at h; cases h

theorem readBlock_error {a n : Nat} {e : DefinedError} (h : readBlock s a n = .error e) :
    (0 < n ∧ 0x1000 < a + n) ∧ e = .memoryOutOfBounds (max a 0x1000) := by
  by_cases hf : n = 0 ∨ a + n ≤ 0x1000
  · rw [readBlock_inside hf] at h; cases h
  · have hn : 0 < n := by omega
    have hl : 0x1000 < a + n := by omega
    rw [readBlock_outside hn hl] at h; cases h; exact ⟨⟨hn, hl⟩, rfl⟩

theorem pushPc_ok (h : pushPc s = .ok t) :
    ∃ hs : s.sp.val < 16, t = { s with stack := s.stack.set s.sp.val s.pc hs, sp := ⟨s.sp.val + 1, by omega⟩ } := by
  by_cases hs : s.sp.val < 16
  · rw [pushPc_of_lt hs] at h; cases h; exact ⟨hs, rfl⟩
  · rw [pushPc_of_full (by omega)] at h; cases h

theorem popPc_ok (h : popPc s = .ok t) :
    ∃ hs : 0 < s.sp.val,
      t = { s with sp := ⟨s.sp.val - 1, by omega⟩, pc := s.stack[s.sp.val - 1]'(by omega) } := by
  by_cases hs : 0 < s.sp.val
  · rw [popPc_of_pos hs] at h; cases h; exact ⟨hs, rfl⟩
  · rw [popPc_of_empty (by omega)] at h; cases h

theorem keyIndex_ok {x k : Reg} (h : keyIndex s x = .ok k) :
    (s.reg x).toNat ≤ 15 ∧ k = (s.reg x).setWidth 4 := by
  by_cases hf : (s.reg x).toNat ≤ 15
  · rw [keyIndex_inside hf] at h; cases h; exact ⟨hf, rfl⟩
  · rw [keyIndex_outside (by omega)] at h; cases h

theorem keyIndex_error {x : Reg} {e : DefinedError} (h : keyIndex s x = .error e) :
    15 < (s.reg x).toNat ∧ e = .keyIndexOutOfRange (s.reg x) := by
  by_cases hf : (s.reg x).toNat ≤ 15
  · rw [keyIndex_inside hf] at h; cases h
  · rw [keyIndex_outside (by omega)] at h; cases h; exact ⟨by omega, rfl⟩

/-- A mapped operation that succeeded: the operation succeeded. -/
theorem map_ok {α β : Type} {r : Except DefinedError α} {f : α → β} {b : β} (h : r.map f = .ok b) :
    ∃ a, r = .ok a ∧ b = f a := by
  cases r with
  | ok a => exact ⟨a, rfl, by cases h; rfl⟩
  | error e => cases h

theorem map_error {α β : Type} {r : Except DefinedError α} {f : α → β} {e : DefinedError}
    (h : r.map f = .error e) : r = .error e := by
  cases r with
  | ok a => cases h
  | error e' => cases h; rfl

/-! ### Memory after an effect -/

/-- An effect that raises nothing stores `storedBytes` at the data base, inside memory, and touches no other byte. -/
theorem effect_mem {i : Instr} (h : effect i s = .ok t) :
    (storedBytes s i = [] ∨ dataBase s + (storedBytes s i).length ≤ 0x1000) ∧
      t.mem = s.mem.writeBytes (dataBase s) (storedBytes s i) := by
  cases i <;> simp only [effect] at h
  case ldB => obtain ⟨hf, rfl⟩ := writeBlock_ok h; exact ⟨hf, rfl⟩
  case stRegs => obtain ⟨hf, rfl⟩ := writeBlock_ok h; exact ⟨hf, rfl⟩
  all_goals refine ⟨.inl rfl, ?_⟩
  case ret => obtain ⟨_, rfl⟩ := popPc_ok h; rfl
  case call => obtain ⟨u, hu, rfl⟩ := map_ok h; obtain ⟨_, rfl⟩ := pushPc_ok hu; rfl
  case drw => obtain ⟨u, hu, rfl⟩ := map_ok h; rfl
  case skp => obtain ⟨u, hu, rfl⟩ := map_ok h; simp [storedBytes, Memory.writeBytes]
  case sknp => obtain ⟨u, hu, rfl⟩ := map_ok h; simp [storedBytes, Memory.writeBytes]
  case ldVxK => split at h <;> cases h <;> rfl
  case ldRegs => obtain ⟨u, hu, rfl⟩ := map_ok h; simp [storedBytes, Memory.writeBytes]
  all_goals (cases h; simp [storedBytes, Memory.writeBytes])

/-- Every byte of memory after an effect that raises nothing. -/
theorem effect_read {i : Instr} (hm : s.mem.wf = true) (h : effect i s = .ok t) (a : Nat) :
    t.mem.read a = byteAfter s i a := by
  obtain ⟨hf, he⟩ := effect_mem h
  rcases hf with hn | hf
  · rw [he, byteAfter, hn, if_neg (by simp only [List.length_nil]; omega)]; rfl
  · rw [he, byteAfter, Memory.read_writeBytes hm hf]

/-! ### Errors and the latch -/

/-- An effect that raises nothing leaves the latch as it was. -/
theorem effect_err {i : Instr} (h : effect i s = .ok t) : t.err = s.err := by
  cases i <;> simp only [effect] at h
  case ret => obtain ⟨_, rfl⟩ := popPc_ok h; rfl
  case call => obtain ⟨u, hu, rfl⟩ := map_ok h; obtain ⟨_, rfl⟩ := pushPc_ok hu; rfl
  case drw => obtain ⟨u, hu, rfl⟩ := map_ok h; rfl
  case skp => obtain ⟨u, hu, rfl⟩ := map_ok h; simp
  case sknp => obtain ⟨u, hu, rfl⟩ := map_ok h; simp
  case ldVxK => split at h <;> cases h <;> rfl
  case ldB => obtain ⟨_, rfl⟩ := writeBlock_ok h; rfl
  case stRegs => obtain ⟨_, rfl⟩ := writeBlock_ok h; rfl
  case ldRegs => obtain ⟨u, hu, rfl⟩ := map_ok h; simp
  all_goals (cases h; simp)

/-- On a clear latch, a handler that answers has either done its effect and left the latch clear, or raised. -/
theorem exec_cases_of_running {i : Instr} (h0 : s.err = none) (h : exec i s = .next t) :
    (effect i s = .ok t ∧ t.err = none) ∨ ∃ e, effect i s = .error e ∧ t = s.raise e :=
  (exec_cases h).imp_left (fun hx => ⟨hx, (effect_err hx).trans h0⟩)

/-! ### One Step, read backwards -/

/-- What a next state of a Step is: after a fetch out of range, the error latched; else the handler's state ticked, or the
state before with the handler's error latched. -/
theorem step_cases (h : step s = .next t) :
    s.err = none ∧
    ((0xFFE < s.pc.toNat ∧ t = s.raise (.fetchOutOfBounds s.pc)) ∨
     (s.pc.toNat ≤ 0xFFE ∧ ∃ u, runWord (s.mem.wordAt s.pc.toNat) s.advance = .next u ∧
       ((u.err = none ∧ t = { u.tick with loadOpen := false }) ∨ ∃ e, u.err = some e ∧ t = s.raise e))) := by
  cases he : s.err with
  | some e => rw [step_latched he] at h; cases h
  | none =>
    rw [step_running he] at h
    refine ⟨rfl, ?_⟩
    by_cases hp : s.pc.toNat ≤ 0xFFE
    · rw [cycle_inside hp] at h
      refine .inr ⟨hp, ?_⟩
      cases hr : runWord (s.mem.wordAt s.pc.toNat) s.advance with
      | next u =>
        rw [hr] at h
        refine ⟨u, rfl, ?_⟩
        cases hu : u.err with
        | none => rw [closeStep_ok hu] at h; cases h; exact .inl ⟨rfl, rfl⟩
        | some e => rw [closeStep_raised hu] at h; cases h; exact .inr ⟨e, rfl, rfl⟩
      | fault f => rw [hr] at h; cases h
      | refused f => rw [hr] at h; cases h
    · rw [cycle_outside (by omega)] at h; cases h; exact .inl ⟨by omega, rfl⟩

/-- A Step that completes has fetched, its handler has raised nothing, and it has ticked the handler's state. -/
theorem step_completed (h : step s = .next t) (ht : t.err = none) :
    s.err = none ∧ s.pc.toNat ≤ 0xFFE ∧ ∃ u, runWord (s.mem.wordAt s.pc.toNat) s.advance = .next u ∧ u.err = none ∧
      t = { u.tick with loadOpen := false } := by
  obtain ⟨h0, ⟨-, rfl⟩ | ⟨hp, u, hu, ⟨hn, rfl⟩ | ⟨e, -, rfl⟩⟩⟩ := step_cases h
  · cases ht
  · exact ⟨h0, hp, u, hu, hn, rfl⟩
  · cases ht

/-- A word stored where the next Step fetches is the word it fetches. -/
theorem fetch_pokeWord (hm : s.mem.wf = true) (hp : s.pc.toNat ≤ 0xFFE) (w : Word) :
    fetch (s.pokeWord w) = .ok w := by
  have hs : Config.memSize = 4096 := rfl
  have hw := Memory.write_wf hm s.pc.toNat (Word.hi w)
  have h0 : (s.pokeWord w).mem.read s.pc.toNat = Word.hi w := by
    rw [State.pokeWord, Memory.read_write hw (by omega), if_neg (by omega), Memory.read_write hm (by omega), if_pos rfl]
  have h1 : (s.pokeWord w).mem.read (s.pc.toNat + 1) = Word.lo w := by
    rw [State.pokeWord, Memory.read_write hw (by omega), if_pos rfl]
  refine (fetch_inside (s := s.pokeWord w) hp).trans (congrArg Except.ok ?_)
  show (s.pokeWord w).mem.read s.pc.toNat ++ (s.pokeWord w).mem.read (s.pc.toNat + 1) = w
  rw [h0, h1, rebuild_bytes]

end Sys2Proof.Machine
end

