-- ==== Sys2Proof/Laws/PerInstr.lean ====
section
/-! SUPPORT. The family EncodeRow: every instruction's word selects the row of the opcode map that bears its mnemonic
(spec/30_encoding.md R72, R76), with every operand and every unread bit at every value. -/

namespace Sys2Proof.Laws.EncodeRow

open Sys2Proof

/-- The instruction's word selects its row of R76. -/
def Statement (i : Instr) : Prop := ∃ row ∈ opcodeMap, row.mnemonic = i.mnemonic ∧ row.selects (encode i) = true

/-! A row selected by the class alone, by the class and the low nibble, by the class and the low byte. -/

theorem of_class (m : String) {c : Nibble} {w : Word} (hm : ⟨m, 0xF000, c ++ 0#12⟩ ∈ opcodeMap) (hc : Word.cls w = c) :
    ∃ row ∈ opcodeMap, row.mnemonic = m ∧ row.selects w = true :=
  ⟨_, hm, rfl, by simpa [OpcodeRow.selects] using (mask_class w c).2 hc⟩

theorem of_nibble (m : String) {c n : Nibble} {w : Word} (hm : ⟨m, 0xF00F, c ++ 0#8 ++ n⟩ ∈ opcodeMap)
    (hc : Word.cls w = c) (hn : Word.n w = n) : ∃ row ∈ opcodeMap, row.mnemonic = m ∧ row.selects w = true :=
  ⟨_, hm, rfl, by simpa [OpcodeRow.selects] using (mask_class_nibble w c n).2 ⟨hc, hn⟩⟩

theorem of_byte (m : String) {c : Nibble} {kk : Byte} {w : Word} (hm : ⟨m, 0xF0FF, c ++ 0#4 ++ kk⟩ ∈ opcodeMap)
    (hc : Word.cls w = c) (hk : Word.kk w = kk) : ∃ row ∈ opcodeMap, row.mnemonic = m ∧ row.selects w = true :=
  ⟨_, hm, rfl, by simpa [OpcodeRow.selects] using (mask_class_byte w c kk).2 ⟨hc, hk⟩⟩

theorem cls (ign : Byte) : Statement (.cls ign) :=
  of_nibble "CLS" (c := 0x0#4) (n := 0x0#4) (by decide) (cls_formatZ _ _ _) (n_formatZ _ _ _)
theorem ret (ign : Byte) : Statement (.ret ign) :=
  of_nibble "RET" (c := 0x0#4) (n := 0xE#4) (by decide) (cls_formatZ _ _ _) (n_formatZ _ _ _)
theorem jp (nnn : Addr) : Statement (.jp nnn) :=
  of_class "JP_nnn" (c := 0x1#4) (by decide) (cls_formatA _ _)
theorem call (nnn : Addr) : Statement (.call nnn) :=
  of_class "CALL_nnn" (c := 0x2#4) (by decide) (cls_formatA _ _)
theorem seKk (x : Reg) (kk : Byte) : Statement (.seKk x kk) :=
  of_class "SE_Vx__kk" (c := 0x3#4) (by decide) (cls_formatXK _ _ _)
theorem sneKk (x : Reg) (kk : Byte) : Statement (.sneKk x kk) :=
  of_class "SNE_Vx__kk" (c := 0x4#4) (by decide) (cls_formatXK _ _ _)
theorem seVy (x y : Reg) (ign : Nibble) : Statement (.seVy x y ign) :=
  of_class "SE_Vx__Vy" (c := 0x5#4) (by decide) (cls_formatXYN _ _ _ _)
theorem ldKk (x : Reg) (kk : Byte) : Statement (.ldKk x kk) :=
  of_class "LD_Vx__kk" (c := 0x6#4) (by decide) (cls_formatXK _ _ _)
theorem addKk (x : Reg) (kk : Byte) : Statement (.addKk x kk) :=
  of_class "ADD_Vx__kk" (c := 0x7#4) (by decide) (cls_formatXK _ _ _)
theorem ldVy (x y : Reg) : Statement (.ldVy x y) :=
  of_nibble "LD_Vx__Vy" (c := 0x8#4) (n := 0x0#4) (by decide) (cls_formatXYN _ _ _ _) (n_formatXYN _ _ _ _)
theorem orVy (x y : Reg) : Statement (.orVy x y) :=
  of_nibble "OR_Vx__Vy" (c := 0x8#4) (n := 0x1#4) (by decide) (cls_formatXYN _ _ _ _) (n_formatXYN _ _ _ _)
theorem andVy (x y : Reg) : Statement (.andVy x y) :=
  of_nibble "AND_Vx__Vy" (c := 0x8#4) (n := 0x2#4) (by decide) (cls_formatXYN _ _ _ _) (n_formatXYN _ _ _ _)
theorem xorVy (x y : Reg) : Statement (.xorVy x y) :=
  of_nibble "XOR_Vx__Vy" (c := 0x8#4) (n := 0x3#4) (by decide) (cls_formatXYN _ _ _ _) (n_formatXYN _ _ _ _)
theorem addVy (x y : Reg) : Statement (.addVy x y) :=
  of_nibble "ADD_Vx__Vy" (c := 0x8#4) (n := 0x4#4) (by decide) (cls_formatXYN _ _ _ _) (n_formatXYN _ _ _ _)
theorem subVy (x y : Reg) : Statement (.subVy x y) :=
  of_nibble "SUB_Vx__Vy" (c := 0x8#4) (n := 0x5#4) (by decide) (cls_formatXYN _ _ _ _) (n_formatXYN _ _ _ _)
theorem shr (x y : Reg) : Statement (.shr x y) :=
  of_nibble "SHR_Vx" (c := 0x8#4) (n := 0x6#4) (by decide) (cls_formatXYN _ _ _ _) (n_formatXYN _ _ _ _)
theorem subnVy (x y : Reg) : Statement (.subnVy x y) :=
  of_nibble "SUBN_Vx__Vy" (c := 0x8#4) (n := 0x7#4) (by decide) (cls_formatXYN _ _ _ _) (n_formatXYN _ _ _ _)
theorem shl (x y : Reg) : Statement (.shl x y) :=
  of_nibble "SHL_Vx" (c := 0x8#4) (n := 0xE#4) (by decide) (cls_formatXYN _ _ _ _) (n_formatXYN _ _ _ _)
theorem sneVy (x y : Reg) (ign : Nibble) : Statement (.sneVy x y ign) :=
  of_class "SNE_Vx__Vy" (c := 0x9#4) (by decide) (cls_formatXYN _ _ _ _)
theorem ldI (nnn : Addr) : Statement (.ldI nnn) :=
  of_class "LD_I__nnn" (c := 0xA#4) (by decide) (cls_formatA _ _)
theorem jpV0 (nnn : Addr) : Statement (.jpV0 nnn) :=
  of_class "JP_V0__nnn" (c := 0xB#4) (by decide) (cls_formatA _ _)
theorem rnd (x : Reg) (kk : Byte) : Statement (.rnd x kk) :=
  of_class "RND_Vx__kk" (c := 0xC#4) (by decide) (cls_formatXK _ _ _)
theorem drw (x y : Reg) (n : Nibble) : Statement (.drw x y n) :=
  of_class "DRW_Vx__Vy__n" (c := 0xD#4) (by decide) (cls_formatXYN _ _ _ _)
theorem skp (x : Reg) (ign : Nibble) : Statement (.skp x ign) :=
  of_nibble "SKP_Vx" (c := 0xE#4) (n := 0xE#4) (by decide) (cls_formatXYN _ _ _ _) (n_formatXYN _ _ _ _)
theorem sknp (x : Reg) (ign : Nibble) : Statement (.sknp x ign) :=
  of_nibble "SKNP_Vx" (c := 0xE#4) (n := 0x1#4) (by decide) (cls_formatXYN _ _ _ _) (n_formatXYN _ _ _ _)
theorem ldVxDt (x : Reg) : Statement (.ldVxDt x) :=
  of_byte "LD_Vx__DT" (c := 0xF#4) (kk := 0x07#8) (by decide) (cls_formatXK _ _ _) (kk_formatXK _ _ _)
theorem ldVxK (x : Reg) : Statement (.ldVxK x) :=
  of_byte "LD_Vx__K" (c := 0xF#4) (kk := 0x0A#8) (by decide) (cls_formatXK _ _ _) (kk_formatXK _ _ _)
theorem ldDtVx (x : Reg) : Statement (.ldDtVx x) :=
  of_byte "LD_DT__Vx" (c := 0xF#4) (kk := 0x15#8) (by decide) (cls_formatXK _ _ _) (kk_formatXK _ _ _)
theorem ldStVx (x : Reg) : Statement (.ldStVx x) :=
  of_byte "LD_ST__Vx" (c := 0xF#4) (kk := 0x18#8) (by decide) (cls_formatXK _ _ _) (kk_formatXK _ _ _)
theorem addI (x : Reg) : Statement (.addI x) :=
  of_byte "ADD_I__Vx" (c := 0xF#4) (kk := 0x1E#8) (by decide) (cls_formatXK _ _ _) (kk_formatXK _ _ _)
theorem ldF (x : Reg) : Statement (.ldF x) :=
  of_byte "LD_F__Vx" (c := 0xF#4) (kk := 0x29#8) (by decide) (cls_formatXK _ _ _) (kk_formatXK _ _ _)
theorem ldB (x : Reg) : Statement (.ldB x) :=
  of_byte "LD_B__Vx" (c := 0xF#4) (kk := 0x33#8) (by decide) (cls_formatXK _ _ _) (kk_formatXK _ _ _)
theorem stRegs (x : Reg) : Statement (.stRegs x) :=
  of_byte "LD__I___Vx" (c := 0xF#4) (kk := 0x55#8) (by decide) (cls_formatXK _ _ _) (kk_formatXK _ _ _)
theorem ldRegs (x : Reg) : Statement (.ldRegs x) :=
  of_byte "LD_Vx___I" (c := 0xF#4) (kk := 0x65#8) (by decide) (cls_formatXK _ _ _) (kk_formatXK _ _ _)

end Sys2Proof.Laws.EncodeRow
end

