-- ==== Sys2Proof/Tests/Slice0.lean ====
section
/-! SUPPORT. Tests: words and results taken from spec/ (the worked examples of the rules and the vectors of
spec/95_test_vectors.md, named in each comment), and for every statement with hypotheses a state and operands that meet them. -/

namespace Sys2Proof.Tests

open Sys2Proof Sys2Proof.Machine

/-! ### Well-formedness: an ill-formed term for each check -/

theorem test_wellFormed_refuses : Instr.wellFormed (.cls 0x00) = false ∧ Instr.wellFormed (.ret 0x12) = false ∧
    Instr.wellFormed (.seVy 1 2 7) = false ∧ Instr.wellFormed (.sneVy 1 2 5) = false ∧
    Instr.wellFormed (.skp 0 3) = false ∧ Instr.wellFormed (.sknp 0 3) = false := by decide

theorem test_wellFormed_accepts : Instr.wellFormed (.cls 0x0E) = true ∧ Instr.wellFormed (.ret 0x0E) = true ∧
    Instr.wellFormed (.seVy 1 2 0) = true ∧ Instr.wellFormed (.skp 0 9) = true ∧ Instr.wellFormed (.sknp 0 0xA) = true ∧
    Instr.wellFormed (.shr 15 15) = true := by decide

/-! ### Decoding: a word for every constructor, from the encodings of R76 -/

theorem test_decode_control : decode 0x00E0 = .ok (.cls 0x0E) ∧ decode 0x00EE = .ok (.ret 0x0E) ∧
    decode 0x1ABC = .ok (.jp 0xABC) ∧ decode 0x2400 = .ok (.call 0x400) ∧ decode 0xB300 = .ok (.jpV0 0x300) := by decide

theorem test_decode_skips : decode 0x332A = .ok (.seKk 3 0x2A) ∧ decode 0x432A = .ok (.sneKk 3 0x2A) ∧
    decode 0x5127 = .ok (.seVy 1 2 7) ∧ decode 0x9125 = .ok (.sneVy 1 2 5) ∧
    decode 0xE29E = .ok (.skp 2 9) ∧ decode 0xE2A1 = .ok (.sknp 2 0xA) := by decide

theorem test_decode_arith : decode 0x6A2F = .ok (.ldKk 0xA 0x2F) ∧ decode 0x7105 = .ok (.addKk 1 5) ∧
    decode 0x8120 = .ok (.ldVy 1 2) ∧ decode 0x8121 = .ok (.orVy 1 2) ∧ decode 0x8122 = .ok (.andVy 1 2) ∧
    decode 0x8123 = .ok (.xorVy 1 2) ∧ decode 0x8564 = .ok (.addVy 5 6) ∧ decode 0x8125 = .ok (.subVy 1 2) ∧
    decode 0x8106 = .ok (.shr 1 0) ∧ decode 0x8127 = .ok (.subnVy 1 2) ∧ decode 0x812E = .ok (.shl 1 2) := by decide

theorem test_decode_memory : decode 0xC10F = .ok (.rnd 1 0x0F) ∧ decode 0xA2F0 = .ok (.ldI 0x2F0) ∧
    decode 0xF21E = .ok (.addI 2) ∧ decode 0xF429 = .ok (.ldF 4) ∧ decode 0xF333 = .ok (.ldB 3) ∧
    decode 0xF155 = .ok (.stRegs 1) ∧ decode 0xF265 = .ok (.ldRegs 2) ∧ decode 0xD012 = .ok (.drw 0 1 2) := by decide

theorem test_decode_input : decode 0xF30A = .ok (.ldVxK 3) ∧ decode 0xF307 = .ok (.ldVxDt 3) ∧
    decode 0xF315 = .ok (.ldDtVx 3) ∧ decode 0xF318 = .ok (.ldStVx 3) := by decide

/-- The words that the vectors E1 to E20 send to the no-op handler. -/
theorem test_decode_rejects : decode 0x00E1 = .error (.class0 1) ∧ decode 0x00FD = .error (.class0 0xD) ∧
    decode 0x8008 = .error (.class8 8) ∧ decode 0x812F = .error (.class8 0xF) ∧ decode 0xE090 = .error (.classE 0) ∧
    decode 0xF0FF = .error (.classF 0xFF) ∧ decode 0xF075 = .error (.classF 0x75) ∧
    decodeBytes [0x12] = .error .truncated := by decide

/-- The aliases among E1 to E20. -/
theorem test_decode_aliases : decode 0x0000 = .ok (.cls 0x00) ∧ decode 0x0120 = .ok (.cls 0x12) ∧
    decode 0x0FF0 = .ok (.cls 0xFF) ∧ decode 0x012E = .ok (.ret 0x12) ∧ decode 0xE03E = .ok (.skp 0 3) ∧
    decode 0xE031 = .ok (.sknp 0 3) := by decide

theorem test_table_word : decodeTableWord 16 0xD012 = some (.drw 0 1 2) ∧ decodeTableWord 16 0x8008 = none := by decide

/-- No two rows of the opcode map overlap (R76). -/
theorem test_rows_disjoint : opcodeMap.Pairwise
    (fun a b => (a.mask &&& b.mask) &&& a.mtch ≠ (a.mask &&& b.mask) &&& b.mtch) := by decide

/-! ### One Step -/

/-- The state after a Step of the word `w` placed at `pc`. -/
def after (s : State) (w : Nat) : Option State :=
  match step (s.withFetchWord 16 w) with
  | .next t => some t
  | _ => none

/-- Reset with registers set. -/
def withRegs (rs : List (Reg × Byte)) : State := rs.foldl (fun s p => s.setReg p.1 p.2) State.reset

/-- The bytes `bs` at `a`, and `I` there. -/
def withBytes (a : Nat) (bs : List Byte) (s : State) : State :=
  { s with i := BitVec.ofNat 16 a, mem := s.mem.writeBytes a bs }

/-- What most vectors name: two registers, `VF` and `pc`. -/
def view (x y : Reg) (t : State) : Byte × Byte × Byte × Word := (t.reg x, t.reg y, t.reg 0xF, t.pc)

/-- F1, F3 and R95: a no-op advances `pc` and ticks. -/
theorem test_nop : (after ((State.reset.setDt 7).setSt 1) 0x8008).map (fun t => (t.pc, t.dt, t.st)) =
    some (0x202, 6, 0) := by decide

/-- F4, F5: running off the end of memory. -/
theorem test_fetch_bound : (after (State.reset.setPc 0xFFE) 0x6000).map (fun t => (t.pc, t.err)) = some (0x1000, none) ∧
    (after (State.reset.setPc 0xFFF) 0x6000).map (fun t => (t.pc, t.err)) =
      some (0xFFF, some (.fetchOutOfBounds 0xFFF)) := by decide

/-- F6, F7, C3: a return with an empty stack faults, keeps the timers, and the next Step is refused. -/
theorem test_ret_underflow : (after (State.reset.setDt 5) 0x00EE).map (fun t => (t.pc, t.dt, t.err)) =
    some (0x200, 5, some .stackUnderflow) := by decide
theorem test_step_refused : step (State.reset.raise .stackUnderflow) = .fault (.latched .stackUnderflow) := rfl

/-- F8: an odd `pc`. -/
theorem test_odd_pc : (after (State.reset.setPc 0x201) 0x602A).map (fun t => (t.reg 0, t.pc)) =
    some (0x2A, 0x203) := by decide

/-- The font of R52, transcribed glyph by glyph. -/
theorem test_font : (List.range 80).map (fun k => State.reset.mem.read (0x50 + k)) =
    [0xF0, 0x90, 0x90, 0x90, 0xF0] ++ [0x20, 0x60, 0x20, 0x20, 0x70] ++ [0xF0, 0x10, 0xF0, 0x80, 0xF0] ++
    [0xF0, 0x10, 0xF0, 0x10, 0xF0] ++ [0x90, 0x90, 0xF0, 0x10, 0x10] ++ [0xF0, 0x80, 0xF0, 0x10, 0xF0] ++
    [0xF0, 0x80, 0xF0, 0x90, 0xF0] ++ [0xF0, 0x10, 0x20, 0x40, 0x40] ++ [0xF0, 0x90, 0xF0, 0x90, 0xF0] ++
    [0xF0, 0x90, 0xF0, 0x10, 0xF0] ++ [0xF0, 0x90, 0xF0, 0x90, 0x90] ++ [0xE0, 0x90, 0xE0, 0x90, 0xE0] ++
    [0xF0, 0x80, 0x80, 0x80, 0xF0] ++ [0xE0, 0x90, 0x90, 0x90, 0xE0] ++ [0xF0, 0x80, 0xF0, 0x80, 0xF0] ++
    [0xF0, 0x80, 0xF0, 0x80, 0x80] := by decide

/-- R170: the codes. -/
theorem test_error_codes : DefinedError.code none = 0 ∧ DefinedError.code (some (.fetchOutOfBounds 0)) = 1 ∧
    DefinedError.code (some (.memoryOutOfBounds 0)) = 2 ∧ DefinedError.code (some .stackOverflow) = 3 ∧
    DefinedError.code (some .stackUnderflow) = 4 ∧ DefinedError.code (some (.keyIndexOutOfRange 0)) = 5 ∧
    DefinedError.code (some (.loadError 0)) = 6 := by decide

/-! Control flow (C1 to C9, L1.8, R100) -/

theorem test_cls : (after (State.reset.setFrame (Frame.blank.toggle 1 1)) 0x0120).map
    (fun t => (t.frame.pixel 1 1, t.pc)) = some (false, 0x202) := by decide
theorem test_call : (after State.reset 0x2400).map (fun t => (t.stack[0], t.sp.val, t.pc)) =
    some (0x202, 1, 0x400) := by decide
theorem test_call_overflow : (after { State.reset with sp := 16 } 0x2ABC).map (fun t => (t.sp.val, t.pc, t.err)) =
    some (16, 0x200, some .stackOverflow) := by decide
theorem test_ret_odd : (after { State.reset with sp := 1, stack := State.reset.stack.set 0 0x345 } 0x012E).map
    (fun t => (t.sp.val, t.pc)) = some (0, 0x345) := by decide
theorem test_jp : (after State.reset 0x1ABC).map (fun t => t.pc) = some 0xABC := by decide
theorem test_jpV0 : (after (withRegs [(0, 0xFF)]) 0xBFFF).map (fun t => (t.pc, t.err)) = some (0x10FE, none) := by decide

/-! Skips (S1 to S9) -/

theorem test_seKk : (after (withRegs [(3, 0x2A)]) 0x332A).map (fun t => t.pc) = some 0x204 ∧
    (after (withRegs [(3, 0x2B)]) 0x332A).map (fun t => t.pc) = some 0x202 := by decide
theorem test_sneKk : (after (withRegs [(3, 0x2A)]) 0x432A).map (fun t => t.pc) = some 0x202 ∧
    (after State.reset 0x432A).map (fun t => t.pc) = some 0x204 := by decide
theorem test_seVy : (after (withRegs [(1, 7), (2, 7)]) 0x5127).map (view 1 2) = some (7, 7, 0, 0x204) := by decide
theorem test_sneVy : (after (withRegs [(1, 7), (2, 8)]) 0x9120).map (fun t => t.pc) = some 0x204 ∧
    (after (withRegs [(1, 7), (2, 7)]) 0x9125).map (fun t => t.pc) = some 0x202 := by decide

/-! Arithmetic and logic (A1 to A26, L1.7) -/

theorem test_ldKk : (after State.reset 0x6FAB).map (fun t => t.reg 0xF) = some 0xAB := by decide
theorem test_addKk : (after (withRegs [(1, 0xFE)]) 0x7105).map (view 1 0) = some (3, 0, 0, 0x202) := by decide
theorem test_ldVy : (after (withRegs [(2, 9)]) 0x8120).map (view 1 2) = some (9, 9, 0, 0x202) := by decide
theorem test_orVy : (after (withRegs [(0, 0xF0), (1, 0x0F), (0xF, 1)]) 0x8011).map (view 0 1) =
    some (0xFF, 0x0F, 1, 0x202) := by decide
theorem test_andVy : (after (withRegs [(1, 0xF0), (2, 0x3C)]) 0x8122).map (view 1 2) =
    some (0x30, 0x3C, 0, 0x202) := by decide
theorem test_xorVy : (after (withRegs [(1, 0xF0), (2, 0x3C)]) 0x8123).map (view 1 2) =
    some (0xCC, 0x3C, 0, 0x202) := by decide
theorem test_addVy : (after (withRegs [(5, 200), (6, 100)]) 0x8564).map (view 5 6) =
    some (44, 100, 1, 0x202) := by decide
theorem test_addVy_flag_last : (after (withRegs [(0xF, 0xF0), (1, 0x20)]) 0x8F14).map (fun t => t.reg 0xF) = some 1 ∧
    (after (withRegs [(0, 1), (0xF, 0xFF)]) 0x80F4).map (view 0 0) = some (0, 0, 1, 0x202) := by decide
theorem test_subVy : (after (withRegs [(1, 5), (2, 7)]) 0x8125).map (view 1 2) = some (254, 7, 0, 0x202) ∧
    (after (withRegs [(0, 5), (1, 5)]) 0x8015).map (view 0 1) = some (0, 5, 1, 0x202) := by decide
theorem test_subVy_vf : (after (withRegs [(0xF, 3), (1, 5)]) 0x8F15).map (fun t => t.reg 0xF) = some 0 ∧
    (after (withRegs [(0, 10), (0xF, 3)]) 0x80F5).map (view 0 0) = some (7, 7, 1, 0x202) := by decide
theorem test_subnVy : (after (withRegs [(0, 7), (1, 5)]) 0x8017).map (view 0 1) = some (0xFE, 5, 0, 0x202) ∧
    (after (withRegs [(1, 5), (2, 7)]) 0x8127).map (view 1 2) = some (2, 7, 1, 0x202) := by decide
theorem test_shr : (after (withRegs [(0, 5), (1, 0xFF)]) 0x8016).map (view 0 1) = some (2, 0xFF, 1, 0x202) ∧
    (after (withRegs [(0xF, 2)]) 0x8F06).map (fun t => t.reg 0xF) = some 0 := by decide
theorem test_shl : (after (withRegs [(0, 0x81)]) 0x800E).map (view 0 1) = some (2, 0, 1, 0x202) ∧
    (after (withRegs [(0xF, 0x80)]) 0x8F0E).map (fun t => t.reg 0xF) = some 1 := by decide

/-! Random, index and memory (M1 to M19) -/

/-- M1 to M3, for every draw: the result is the draw masked. -/
theorem test_rnd : (after State.reset 0xC10F).map (fun t => (t.reg 1, t.drawn)) =
    some (Config.drawByte 0 &&& 0x0F, 1) := rfl
theorem test_ldI : (after State.reset 0xA2F0).map (fun t => t.i) = some 0x2F0 := by decide
theorem test_addI : (after ((withRegs [(0, 1), (0xF, 7)]).setI 0xFFFF) 0xF01E).map (fun t => (t.i, t.reg 0xF)) =
    some (0, 7) ∧ (after ((withRegs [(0, 1)]).setI 0x0FFF) 0xF01E).map (fun t => (t.i, t.err)) =
    some (0x1000, none) := by decide
theorem test_ldF : (after (withRegs [(4, 0x0A)]) 0xF429).map (fun t => t.i) = some 0x0082 ∧
    (after (withRegs [(0, 0xFF)]) 0xF029).map (fun t => t.i) = some 0x054B := by decide
theorem test_ldB : (after ((withRegs [(0, 255)]).setI 0xFFD) 0xF033).map
    (fun t => (t.mem.read 0xFFD, t.mem.read 0xFFE, t.mem.read 0xFFF, t.i)) = some (2, 5, 5, 0xFFD) := by decide
theorem test_ldB_outside : (after ((withRegs [(0, 255)]).setI 0xFFE) 0xF033).map
    (fun t => (t.mem.read 0xFFE, t.mem.read 0xFFF, t.pc, t.err)) =
    some (0, 0, 0x200, some (.memoryOutOfBounds 0x1000)) := by decide
theorem test_stRegs : (after ((withRegs [(0, 0x11), (1, 0x22)]).setI 0x400) 0xF155).map
    (fun t => (t.mem.read 0x400, t.mem.read 0x401, t.mem.read 0x402, t.i)) = some (0x11, 0x22, 0, 0x400) := by decide
/-- M18: the font overwritten, its neighbour kept. -/
theorem test_stRegs_font : (after ((withRegs [(0, 0xAB)]).setI 0x050) 0xF055).map
    (fun t => (t.mem.read 0x050, t.mem.read 0x051)) = some (0xAB, 0x90) := by decide
theorem test_ldRegs : (after (withBytes 0x400 [0x0A, 0x0B, 0x0C] State.reset) 0xF265).map (fun t => (t.reg 0, t.reg 1, t.reg 2, t.reg 3)) = some (0x0A, 0x0B, 0x0C, 0) := by decide
theorem test_ldRegs_outside : (after ((withRegs [(0, 5)]).setI 0xFFFF) 0xF065).map (fun t => (t.reg 0, t.err)) =
    some (5, some (.memoryOutOfBounds 0xFFFF)) := by decide

/-! Sprite (D1 to D9) -/

/-- How many pixels are on. -/
def litCount (f : Frame) : Nat := (f.toList.map (fun row => row.toList.countP (fun b => b))).sum

/-- D6: glyph 0 at the origin. -/
theorem test_drw_glyph : (after (State.reset.setI 0x050) 0xD015).map (fun t => (litCount t.frame, t.frame.pixel 3 4,
    t.frame.pixel 1 1, t.reg 0xF)) = some (14, true, false, 0) := by decide
/-- D9, first draw: both edges wrap. -/
theorem test_drw_wraps : (after (withBytes 0x300 [0xC0, 0xFF] (withRegs [(0, 62), (1, 31)])) 0xD012).map
    (fun t => (litCount t.frame, t.frame.pixel 63 31, t.frame.pixel 0 31, t.frame.pixel 5 0, t.frame.pixel 62 0, t.reg 0xF)) =
    some (10, true, false, true, true, 0) := by decide
/-- R153's worked example, second draw: all ten pixels off again, and a collision. -/
theorem test_drw_twice : ((after (withBytes 0x300 [0xC0, 0xFF] (withRegs [(0, 62), (1, 31)])) 0xD012).bind
    (fun t => (after (t.setPc 0x200) 0xD012).map (fun u => (litCount t.frame, litCount u.frame, u.reg 0xF)))) =
    some (10, 0, 1) := by decide
/-- D2: a collision. -/
theorem test_drw_collides : (after (withBytes 0x300 [0xC0] (State.reset.setFrame (Frame.blank.toggle 1 0))) 0xD011).map
    (fun t => (t.frame.pixel 0 0, t.frame.pixel 1 0, t.reg 0xF)) = some (true, false, 1) := by decide
/-- R150 by hand where R153's sentence on the flag differs (log entry 31): one pixel, on before both draws. -/
theorem test_second_draw_flag :
    ((after (withBytes 0x300 [0x80] (State.reset.setFrame (Frame.blank.toggle 0 0))) 0xD011).bind
      (fun t => (after (t.setPc 0x200) 0xD011).map (fun u => (t.reg 0xF, t.frame.pixel 0 0, u.reg 0xF, u.frame.pixel 0 0)))) =
    some (1, false, 0, true) := by decide
/-- D3: height 0 with `I` outside memory; D4: a draw that does not fit. -/
theorem test_drw_bounds : (after ((withRegs [(0xF, 1)]).setI 0x2000) 0xD010).map (fun t => (t.reg 0xF, t.err)) =
    some (0, none) ∧ (after ((withRegs [(0xF, 1)]).setI 0xFFF) 0xD012).map (fun t => (t.reg 0xF, t.err)) =
    some (1, some (.memoryOutOfBounds 0x1000)) := by decide

/-! Input and timers (K1 to K10, T1 to T6) -/

theorem test_skp : (after (hostKey 5 true (withRegs [(2, 5)])) 0xE29E).map (fun t => t.pc) = some 0x204 ∧
    (after (withRegs [(2, 5)]) 0xE29E).map (fun t => t.pc) = some 0x202 := by decide
theorem test_skp_range : (after (withRegs [(0, 16)]) 0xE09E).map (fun t => (t.pc, t.err)) =
    some (0x200, some (.keyIndexOutOfRange 16)) := by decide
theorem test_sknp : (after (hostKey 15 true (withRegs [(0, 15)])) 0xE0A1).map (fun t => t.pc) = some 0x202 ∧
    (after (withRegs [(0, 15)]) 0xE0A1).map (fun t => t.pc) = some 0x204 := by decide
theorem test_ldVxK_waits : (after ((withRegs [(0, 0x55)]).setDt 2) 0xF00A).map (fun t => (t.pc, t.reg 0, t.dt)) =
    some (0x200, 0x55, 1) := by decide
theorem test_ldVxK_lowest : (after (hostKey 3 true (hostKey 15 true State.reset)) 0xF00A).map
    (fun t => (t.pc, t.reg 0)) = some (0x202, 3) := by decide
theorem test_ldVxDt : (after (State.reset.setDt 9) 0xF307).map (fun t => (t.reg 3, t.dt)) = some (9, 8) := by decide
theorem test_ldDtVx : (after (withRegs [(3, 60)]) 0xF315).map (fun t => t.dt) = some 59 ∧
    (after State.reset 0xF015).map (fun t => t.dt) = some 0 := by decide
theorem test_ldStVx : (after (withRegs [(3, 2)]) 0xF318).map (fun t => t.st) = some 1 := by decide

/-! Load (R2, and D21) -/

theorem test_load : (match hostLoad [0x12, 0x00, 0x60] State.reset with
    | .next t => some (t.mem.read 0x200, t.mem.read 0x201, t.mem.read 0x202, t.mem.read 0x203, t.pc)
    | _ => none) = some (0x12, 0, 0x60, 0, 0x200) := by decide

/-! ### Witnesses: for every statement with hypotheses, a concrete state and operands that meet them all, clause by clause -/

/-- Reset with the word `w` where the next Step fetches it. -/
def placed (w : Nat) : State := State.reset.withFetchWord 16 w

theorem placed_canFetch (w : Nat) : CanFetch (placed w) := ⟨rfl, (by decide : (0x200#16).toNat ≤ 0xFFE)⟩

/-- Reset with `n` stack entries in use. -/
def withSp (n : Fin 17) : State := { State.reset with sp := n }

theorem witness_EncodeOfDecode : decode 0xD012 = .ok (.drw 0 1 2) := by decide

theorem witness_DecodeFollowsTheOpcodeMap : decode 0xE03E = .ok (.skp 0 3) ∧ decode 0x8008 = .error (.class8 8) := by decide

/-- A handler that completes (first and second clause) and one that raises (first and third). -/
theorem witness_StepRunsTheDecodedInstruction :
    (CanFetch (placed 0x6105) ∧ decode (nextWord (placed 0x6105)) = .ok (.ldKk 1 5) ∧
      ∃ t, exec (.ldKk 1 5) { placed 0x6105 with pc := (placed 0x6105).pc + 2 } = .next t ∧ t.err = none) ∧
    (CanFetch (placed 0x00EE) ∧ decode (nextWord (placed 0x00EE)) = .ok (.ret 0x0E) ∧
      ∃ t, exec (.ret 0x0E) { placed 0x00EE with pc := (placed 0x00EE).pc + 2 } = .next t ∧
        t.err = some .stackUnderflow) :=
  ⟨⟨placed_canFetch _, by decide, _, rfl, rfl⟩, placed_canFetch _, by decide, _, rfl, rfl⟩

theorem witness_UnrecognisedWordIsANoOp : CanFetch (placed 0x8008) ∧
    ∀ row ∈ opcodeMap, row.selects (nextWord (placed 0x8008)) = false := ⟨placed_canFetch _, by decide⟩

theorem witness_LatchedErrorRefusesStepAndLoad :
    (State.reset.raise .stackOverflow).err = some .stackOverflow := rfl

/-- Both sides of the bound. -/
theorem witness_FetchBoundIsBothBytes :
    ((State.reset.setPc 0xFFF).err = none ∧ 0xFFE < (State.reset.setPc 0xFFF).pc.toNat) ∧
    ((State.reset.setPc 0xFFE).err = none ∧ (State.reset.setPc 0xFFE).pc.toNat ≤ 0xFFE ∧
      ∃ t, step (State.reset.setPc 0xFFE) = .next t) := ⟨by decide, rfl, by decide, _, rfl⟩

/-- An image of two bytes: the word of index 0 is its last. -/
theorem witness_FetchAndImageAreBigEndian : (State.reset.setPc 0xFFE).pc.toNat ≤ 0xFFE ∧
    2 * 0 + 1 < [0x12#8, 0x00#8].length ∧ State.reset.mem.wf = true ∧
    ∃ t, hostLoad [0x12, 0x00] State.reset = .next t ∧ t.err = none := ⟨by decide, by decide, by decide, _, rfl, rfl⟩

/-- Fx15, Fx18 and a word that writes no timer. -/
theorem witness_TimersTickInEveryCompletedStep : ∀ w ∈ [0xF315, 0xF318, 0x8008],
    CanFetch (placed w) ∧ ((after State.reset w).map (fun t => t.err)) = some none := by
  intro w h
  refine ⟨placed_canFetch w, ?_⟩
  revert w
  decide

theorem witness_FaultingStepKeepsNothing : State.reset.err = none ∧
    (∃ t, exec (.ret 0x0E) State.reset = .next t ∧ t.err = some .stackUnderflow) ∧
    (placed 0x00EE).err = none ∧ (∃ t, step (placed 0x00EE) = .next t ∧ t.err = some .stackUnderflow) :=
  ⟨rfl, ⟨_, rfl, rfl⟩, rfl, _, rfl, rfl⟩

theorem witness_EveryStepAnswers : State.reset.err = none := rfl

/-- One raise for each of the six cases, each at the edge of its range. -/
theorem witness_OnlyTheseHandlersRaise :
    (∃ t, exec (.call 0x400) (withSp 16) = .next t ∧ t.err = some .stackOverflow) ∧
    (∃ t, exec (.ret 0) State.reset = .next t ∧ t.err = some .stackUnderflow) ∧
    (∃ t, exec (.skp 0 9) (withRegs [(0, 16)]) = .next t ∧ t.err = some (.keyIndexOutOfRange 16)) ∧
    (∃ t, exec (.drw 0 1 2) (State.reset.setI 0xFFF) = .next t ∧ t.err = some (.memoryOutOfBounds 0x1000)) ∧
    (∃ t, exec (.ldB 0) (State.reset.setI 0xFFE) = .next t ∧ t.err = some (.memoryOutOfBounds 0x1000)) ∧
    (∃ t, exec (.stRegs 0) (State.reset.setI 0x1000) = .next t ∧ t.err = some (.memoryOutOfBounds 0x1000)) ∧
    (∃ t, exec (.ldRegs 1) (State.reset.setI 0xFFF) = .next t ∧ t.err = some (.memoryOutOfBounds 0x1000)) :=
  ⟨⟨_, rfl, rfl⟩, ⟨_, rfl, rfl⟩, ⟨_, rfl, by decide⟩, ⟨_, rfl, by decide⟩, ⟨_, rfl, by decide⟩, ⟨_, rfl, by decide⟩, _, rfl,
    by decide⟩

theorem reset_inv : Inv State.reset := ⟨by decide, by decide, by decide⟩

theorem witness_StepKeepsTheInvariant : Inv State.reset ∧ ∃ s', step State.reset = .next s' := ⟨reset_inv, _, rfl⟩

/-- A transaction of each kind from reset, and a reachable state. -/
theorem witness_ReachableStatesSatisfyTheInvariant : Inv State.reset ∧
    (∀ tr ∈ [Transaction.reset, .load [0x12, 0x00], .step, .keyWrite 3 true, .frameRead],
      ∃ s', transact tr State.reset = .next s') ∧
    ∃ s', step State.reset = .next s' ∧ Reachable s' := by
  refine ⟨reset_inv, ?_, _, rfl, .next .step .reset rfl⟩
  simp only [List.forall_mem_cons, List.not_mem_nil, false_imp_iff, implies_true, and_true]
  exact ⟨⟨_, rfl⟩, ⟨_, rfl⟩, ⟨_, rfl⟩, ⟨_, rfl⟩, _, rfl⟩

/-- Two ways to write the same bytes. -/
theorem witness_CanonicalMemoriesAreDeterminedByReads :
    (((State.reset.mem.write 0x300 1).write 0x301 2).wf = true ∧ ((State.reset.mem.write 0x301 2).write 0x300 1).wf = true) ∧
    ∀ a, a < 4096 → ((State.reset.mem.write 0x300 1).write 0x301 2).read a =
      ((State.reset.mem.write 0x301 2).write 0x300 1).read a := by
  refine ⟨by decide, fun a _ => ?_⟩
  rw [show (State.reset.mem.write 0x300 1).write 0x301 2 = (State.reset.mem.write 0x301 2).write 0x300 1 by decide]

/-- Both sides of the bound of an access, and of the fetch. -/
theorem witness_MemoryAccessesAreBoundedNotWrapped : (0x1000 > 0xFFF ∧ 0xFFF ≤ 0xFFF ∧ State.reset.mem.wf = true) ∧
    (State.reset.setPc 0xFFF).pc.toNat > 0xFFE ∧ (State.reset.setPc 0xFFE).pc.toNat ≤ 0xFFE := by decide

/-- The three clauses, the last two at the largest image accepted and the smallest rejected. -/
theorem witness_LoadPlacesTheImage : (State.reset.raise .stackOverflow).err = some .stackOverflow ∧
    (State.reset.err = none ∧ State.reset.loadOpen = true ∧ 3584 < (List.replicate 3585 0#8).length) ∧
    (State.reset.err = none ∧ State.reset.loadOpen = true ∧ State.reset.mem.wf = true ∧
      (List.replicate 3584 0#8).length ≤ 3584) := by
  refine ⟨rfl, ⟨rfl, rfl, ?_⟩, rfl, rfl, rfl, ?_⟩
  · rw [List.length_replicate]; decide
  · rw [List.length_replicate]

theorem witness_LoadOutsideTheContractIsRefused :
    (∃ t, step State.reset = .next t ∧ t.err = none ∧ t.loadOpen = false) ∧
    (∃ t, hostLoad [0x12] State.reset = .next t ∧ t.err = none) := ⟨⟨_, rfl, rfl, rfl⟩, _, rfl, rfl⟩

theorem witness_StateIsWrittenOnlyByItsWriters : ∃ t, exec (.ldVxK 0) State.reset = .next t := ⟨_, rfl⟩

/-- `VF` under an instruction that does not write it, and a register under one that writes another. -/
theorem witness_OtherRegistersAreUnchanged : (∃ t, exec (.addKk 1 5) State.reset = .next t) ∧ ¬ Writes (.addKk 1 5) 0xF ∧
    (∃ t, exec (.addVy 1 2) State.reset = .next t) ∧ ¬ Writes (.addVy 1 2) 2 :=
  ⟨⟨_, rfl⟩, by simp [Writes], ⟨_, rfl⟩, by simp [Writes]⟩

theorem witness_SoundTimerIsNeverRead : (∀ x, Instr.ldVxDt 3 ≠ .ldStVx x) ∧
    ∃ t, exec (.ldVxDt 3) State.reset = .next t := ⟨by simp, _, rfl⟩

/-- Two machines that differ in a popped entry; a Step of the first, and a refused Step. -/
theorem witness_PoppedEntriesAreUnobservable :
    (AgreeBelowSp (withSp 1) { withSp 1 with stack := (withSp 1).stack.set 1 7 } ∧ ∃ t, step (withSp 1) = .next t) ∧
    (AgreeBelowSp (State.reset.raise .stackOverflow) (State.reset.raise .stackOverflow) ∧
      step (State.reset.raise .stackOverflow) = .fault (.latched .stackOverflow)) :=
  ⟨⟨⟨rfl, by decide⟩, _, rfl⟩, ⟨rfl, by decide⟩, rfl⟩

theorem witness_RetPopsTheSavedPc : (withSp 0).sp.val = 0 ∧ 0 < (withSp 1).sp.val ∧ 0 < (withSp 16).sp.val := by decide

theorem witness_CallPushesThePostFetchPc : (withSp 16).sp.val = 16 ∧ (withSp 15).sp.val < 16 ∧ (withSp 0).sp.val < 16 := by
  decide

theorem witness_ReturnComesBackAfterTheCall : (withSp 15).sp.val < 16 ∧ ∃ t, exec (.call 0x400) (withSp 15) = .next t :=
  ⟨by decide, _, rfl⟩

theorem witness_ParkedMachineOnlyTicks : Parked 0x200 (placed 0x1200) ∧
    Parked 0xFFE ((State.reset.setPc 0xFFE).withFetchWord 16 0x1FFE) :=
  ⟨⟨rfl, rfl, by decide, by decide⟩, rfl, rfl, by decide, by decide⟩

/-- Reset is a reset state, and so is what the transaction makes of a latched state. -/
theorem witness_ResetLeavesTheStatedValues :
    transact .reset (State.reset.raise .stackOverflow) = .next (hostReset (State.reset.raise .stackOverflow)) := rfl

/-- Completing Steps of a jump, a call, a return, a wait and a plain instruction (table), and of a no-op. -/
theorem witness_PcAfterEachStepIsAsTabled : ∀ p ∈ [(placed 0x1ABC, 0x1ABC#16), (placed 0x2400, 0x2400#16),
    ({ placed 0x00EE with sp := 1 }, 0x00EE#16), (placed 0xF00A, 0xF00A#16), (placed 0x6105, 0x6105#16),
    (placed 0x8008, 0x8008#16)],
    p.1.err = none ∧ fetch p.1 = .ok p.2 ∧ ∃ t, step p.1 = .next t ∧ t.err = none := by
  simp only [List.forall_mem_cons, List.not_mem_nil, false_imp_iff, implies_true, and_true]
  exact ⟨⟨rfl, by decide, _, rfl, rfl⟩, ⟨rfl, by decide, _, rfl, rfl⟩, ⟨rfl, by decide, _, rfl, rfl⟩,
    ⟨rfl, by decide, _, rfl, rfl⟩, ⟨rfl, by decide, _, rfl, rfl⟩, rfl, by decide, _, rfl, rfl⟩

/-- R63 at its edges: the register 0x60 stored at 0x203 is the low byte of the fetch at 0x202, where the next Step goes. -/
theorem test_store_then_fetch : ((after ((withRegs [(0, 0x60)]).setI 0x203) 0xF055).map
    (fun t => (t.pc, nextWord t))) = some (0x202, 0x0060) := by decide

/-- A skip at 0xFFC. -/
def edgeSkip : State := (State.reset.setPc 0xFFC).withFetchWord 16 0x3000

/-- Taken (also where it leaves memory) and not taken, and a key skip at the largest key number. -/
theorem witness_SkipAdvancesByFourOrTwo :
    (CanFetch (placed 0x3000) ∧ decode (nextWord (placed 0x3000)) = .ok (.seKk 0 0) ∧
      skipTaken (placed 0x3000) (.seKk 0 0) = some true) ∧
    (CanFetch (placed 0x4000) ∧ decode (nextWord (placed 0x4000)) = .ok (.sneKk 0 0) ∧
      skipTaken (placed 0x4000) (.sneKk 0 0) = some false) ∧
    skipTaken (withRegs [(2, 15)]) (.sknp 2 0xA) = some true ∧
    (CanFetch edgeSkip ∧ decode (nextWord edgeSkip) = .ok (.seKk 0 0) ∧ skipTaken edgeSkip (.seKk 0 0) = some true ∧
      0xFFC ≤ edgeSkip.pc.toNat ∧ ∃ t, step edgeSkip = .next t) :=
  ⟨⟨placed_canFetch _, by decide, by decide⟩, ⟨placed_canFetch _, by decide, by decide⟩, by decide,
    ⟨rfl, by decide⟩, by decide, by decide, by decide, _, rfl⟩

theorem witness_KeySkipsTestTheInputMap : 15 < ((withRegs [(0, 16)]).reg 0).toNat ∧
    ((withRegs [(0, 15)]).reg 0).toNat < 16 := by decide

/-- The side conditions of AddImmediateWrapsWithoutFlag, CopyAndBitwiseWorkBitByBit, AddSetsCarry, SubtractionsSetNoBorrow,
ShiftsMoveByOneAndFlagTheBitOut, RndMasksAFreshDraw and of the frames beside them: a destination other than `VF`, a third
register, a clear bit of the mask. -/
theorem witness_register_results : (1#4 ≠ 0xF) ∧ (2#4 ≠ 1#4 ∧ 2#4 ≠ 0xF) ∧ (0x0F#8).getLsbD 7 = false := by decide

theorem witness_LdFPointsAtTheGlyph : (withRegs [(2, 15)]).mem = State.reset.mem ∧ ((withRegs [(2, 15)]).reg 2).toNat ≤ 15 ∧
    4 < 5 ∧ ∃ t, exec (.ldF 2) (withRegs [(2, 15)]) = .next t := ⟨rfl, by decide, by decide, _, rfl⟩

theorem witness_BcdStoresThreeDigits : 0xFFF < (State.reset.setI 0xFFE).i.toNat + 2 ∧
    ((State.reset.setI 0xFFD).mem.wf = true ∧ (State.reset.setI 0xFFD).i.toNat + 2 ≤ 0xFFF) := by decide

/-- Both clauses where they meet, and the widest store. -/
theorem witness_BlockStoreCopiesRegisters : 0xFFF < (State.reset.setI 0xFF1).i.toNat + (15#4).toNat ∧
    ((State.reset.setI 0xFF0).mem.wf = true ∧ (State.reset.setI 0xFF0).i.toNat + (15#4).toNat ≤ 0xFFF) := by decide

theorem witness_BlockLoadCopiesMemory : 0xFFF < (State.reset.setI 0x1000).i.toNat + (0#4).toNat ∧
    (State.reset.setI 0xFFF).i.toNat + (0#4).toNat ≤ 0xFFF := by decide

theorem witness_BlockLoadUndoesBlockStore : (State.reset.setI 0xFF0).mem.wf = true ∧
    (State.reset.setI 0xFF0).i.toNat + (15#4).toNat ≤ 0xFFF ∧
    ∃ t, exec (.stRegs 15) (State.reset.setI 0xFF0) = .next t ∧
      ∃ u : State, u.mem = t.mem ∧ u.i = t.i := ⟨by decide, by decide, _, rfl, _, rfl, rfl⟩

/-- The store of `V[0]` at 0x203, the low byte of the next word. -/
def storer : State := ((withRegs [(0, 0x60)]).setI 0x203).withFetchWord 16 0xF055

/-- Fx55 and Fx33 up to the last byte of memory, an instruction that stores nothing, and fetches before, among and at the end of
the stored bytes; then a Step whose store the next Step fetches. -/
theorem witness_FetchSeesStoredBytes :
    ((State.reset.setI 0xFFD).mem.wf = true ∧ (State.reset.setI 0xFFD).err = none ∧
      (∀ i ∈ [Instr.stRegs 2, .ldB 0, .jp 0x300], ∃ t, exec i (State.reset.setI 0xFFD) = .next t ∧ t.err = none) ∧
      (0xFFC#16).toNat ≤ 0xFFE ∧ (0xFFD#16).toNat ≤ 0xFFE ∧ (0xFFE#16).toNat ≤ 0xFFE) ∧
    (storer.mem.wf = true ∧ CanFetch storer ∧ decode (nextWord storer) = .ok (.stRegs 0) ∧
      ∃ t, step storer = .next t ∧ t.err = none ∧ t.pc.toNat ≤ 0xFFE) := by
  refine ⟨⟨by decide, rfl, ?_, by decide⟩, by decide, ⟨rfl, by decide⟩, by decide, _, rfl, rfl, by decide⟩
  simp only [List.forall_mem_cons, List.not_mem_nil, false_imp_iff, implies_true, and_true]
  exact ⟨⟨_, rfl, rfl⟩, ⟨_, rfl, rfl⟩, _, rfl, rfl⟩

/-- A screen with pixel (1, 0) on, and a sprite of the one row 0xC0 at (0, 0). -/
def overlap : State := withBytes 0x300 [0xC0] (State.reset.setFrame (Frame.blank.toggle 1 0))

theorem overlap_covers : SpriteCovers overlap 0 1 1 1 0 ∧ SpriteCovers overlap 0 1 1 0 0 :=
  ⟨⟨0, 1, by decide⟩, 0, 0, by decide⟩

/-- An access that does not fit by one byte, one of height 0 outside memory and one that just fits; a covered pixel that was on
(a collision), one that is not covered, and a draw without a collision. -/
theorem witness_DrawInvertsTheCoveredPixels :
    (0 < (2#4).toNat ∧ 0x1000 < (State.reset.setI 0xFFF).i.toNat + (2#4).toNat) ∧
    ((0#4).toNat = 0 ∧ (State.reset.setI 0xFFF).i.toNat + (1#4).toNat ≤ 0x1000) ∧
    (∃ px py, SpriteCovers overlap 0 1 1 px py ∧ overlap.frame.pixel px py = true) ∧
    ¬ SpriteCovers overlap 0 1 1 0 1 ∧
    (¬ ∃ px py, SpriteCovers State.reset 0 1 0 px py ∧ State.reset.frame.pixel px py = true) := by
  refine ⟨by decide, by decide, ⟨1, 0, overlap_covers.1, by decide⟩, ?_, ?_⟩
  · rintro ⟨row, col, hrow, -, -, -, hpy⟩
    obtain rfl : row = 0 := by omega
    exact absurd hpy (by decide)
  · rintro ⟨px, py, ⟨row, col, hrow, -⟩, -⟩
    omega

theorem witness_DrawingTwiceRestoresTheScreen : overlap.i.toNat + (1#4).toNat ≤ 0x1000 ∧
    ∃ t u, exec (.drw 0 1 1) overlap = .next t ∧ t.reg 0 = overlap.reg 0 ∧ t.reg 1 = overlap.reg 1 ∧
      exec (.drw 0 1 1) t = .next u := ⟨by decide, _, _, rfl, by decide, by decide, rfl⟩

/-- The hypotheses of the last sprite statement: those above and a covered pixel. -/
theorem witness_SecondDrawFlagIsOneForEverySprite : (overlap.i.toNat + (1#4).toNat ≤ 0x1000 ∧
    ∃ t u, exec (.drw 0 1 1) overlap = .next t ∧ t.reg 0 = overlap.reg 0 ∧ t.reg 1 = overlap.reg 1 ∧
      exec (.drw 0 1 1) t = .next u) ∧ ∃ px py, SpriteCovers overlap 0 1 (1#4).toNat px py :=
  ⟨witness_DrawingTwiceRestoresTheScreen, 1, 0, overlap_covers.1⟩

/-- No key pressed; the lowest pressed key at both ends of the range; a Step that waits. -/
theorem witness_WaitForKeyPollsTheInputMap : (∀ k, State.reset.key k = false) ∧
    ((hostKey 15 true State.reset).key 15 = true ∧ ∀ j : Reg, j.toNat < (15#4).toNat → (hostKey 15 true State.reset).key j = false) ∧
    (hostKey 0 true State.reset).key 0 = true ∧
    (CanFetch (placed 0xF00A) ∧ decode (nextWord (placed 0xF00A)) = .ok (.ldVxK 0) ∧ ∀ k, (placed 0xF00A).key k = false) :=
  ⟨by decide, by decide, by decide, placed_canFetch _, by decide, by decide⟩

theorem witness_ReadDelayTimerBeforeTheTick : CanFetch (placed 0xF307) ∧
    decode (nextWord (placed 0xF307)) = .ok (.ldVxDt 3) := ⟨placed_canFetch _, by decide⟩

theorem witness_WritingATimerTicksInTheSameStep : CanFetch (placed 0xF315) ∧
    decode (nextWord (placed 0xF315)) = .ok (.ldDtVx 3) ∧ CanFetch (placed 0xF318) ∧
    decode (nextWord (placed 0xF318)) = .ok (.ldStVx 3) :=
  ⟨placed_canFetch _, by decide, placed_canFetch _, by decide⟩

end Sys2Proof.Tests
end

/-! The family of spec/10_state.md: what a Step keeps (R26), which instruction may write which state (section 1), where `pc`
stands after each instruction (R25), and the two parts of the state whose values most instructions cannot see: the popped
stack entries (R28) and the sound timer (R29). -/

namespace Sys2Proof.Machine

variable {s s' t : State} {i : Instr}

/-! ### The handler of a word, read backwards (R94, R95) -/

theorem runWord_decoded {w : Word} (h : decode w = .ok i) : runWord w s = exec i s := by simp [runWord, h]

theorem runWord_rejected {w : Word} {e : Reject} (h : decode w = .error e) : runWord w s = .next s := by
  simp [runWord, execNop, h]

/-- On a clear latch, a word whose handler raised nothing had its instruction's effect, or none if it is no instruction. -/
theorem runWord_completed {w : Word} (h0 : s.err = none) (h : runWord w s = .next t) (ht : t.err = none) :
    (∃ i, decode w = .ok i ∧ effect i s = .ok t) ∨ ((∃ e, decode w = .error e) ∧ t = s) := by
  cases hd : decode w with
  | error e => rw [runWord_rejected hd] at h; cases h; exact .inr ⟨⟨e, rfl⟩, rfl⟩
  | ok i =>
    rw [runWord_decoded hd] at h
    obtain ⟨hx, -⟩ | ⟨e, -, rfl⟩ := exec_cases_of_running h0 h
    · exact .inl ⟨i, rfl, hx⟩
    · cases ht

/-! ### What an effect writes (spec/10_state.md section 1) -/

/-- The frame of an instruction, but for `pc`, memory and the registers: those are `effect_pc`, `effect_mem` and
`effect_reg`. -/
structure KeepsOtherFields (i : Instr) (s t : State) : Prop where
  keys : t.keys = s.keys
  loadOpen : t.loadOpen = s.loadOpen
  stack : t.stack = s.stack ∨ ∃ nnn, i = .call nnn
  sp : t.sp = s.sp ∨ (∃ nnn, i = .call nnn) ∨ ∃ ign, i = .ret ign
  index : t.i = s.i ∨ (∃ nnn, i = .ldI nnn) ∨ (∃ x, i = .addI x) ∨ ∃ x, i = .ldF x
  dt : t.dt = s.dt ∨ ∃ x, i = .ldDtVx x
  st : t.st = s.st ∨ ∃ x, i = .ldStVx x
  frame : t.frame = s.frame ∨ (∃ ign, i = .cls ign) ∨ ∃ x y n, i = .drw x y n
  drawn : t.drawn = s.drawn ∨ ∃ x kk, i = .rnd x kk

theorem effect_keepsOtherFields (h : effect i s = .ok t) : KeepsOtherFields i s t := by
  cases i <;> simp only [effect] at h
  case ret => obtain ⟨_, rfl⟩ := popPc_ok h; constructor <;> simp
  case call => obtain ⟨u, hu, rfl⟩ := map_ok h; obtain ⟨_, rfl⟩ := pushPc_ok hu; constructor <;> simp
  case ldVxK => split at h <;> cases h <;> constructor <;> simp
  case ldB | stRegs => obtain ⟨_, rfl⟩ := writeBlock_ok h; constructor <;> simp
  case drw | skp | sknp | ldRegs => obtain ⟨u, -, rfl⟩ := map_ok h; constructor <;> simp
  all_goals (cases h; constructor <;> simp)

/-- `pc` after a handler that raised nothing, from the post-fetch pc `s.pc` (R25). -/
def HandlerPc (i : Instr) (s t : State) : Prop :=
  match i with
  | .jp nnn | .call nnn => t.pc = addrImm nnn
  | .jpV0 nnn => t.pc = offsetTarget s nnn
  | .ret _ => ∃ u, popPc s = .ok u ∧ t.pc = u.pc
  | .ldVxK _ => t.pc = if s.firstKey = none then s.pc - 2 else s.pc
  | i => t.pc = if skipTaken s i = some true then s.pc + 2 else s.pc

theorem effect_pc (h : effect i s = .ok t) : HandlerPc i s t := by
  cases i <;> simp only [effect] at h
  case ret => exact ⟨t, h, rfl⟩
  case call => obtain ⟨u, -, rfl⟩ := map_ok h; rfl
  case ldVxK => split at h <;> cases h <;> simp [HandlerPc, *]
  case ldB | stRegs => obtain ⟨_, rfl⟩ := writeBlock_ok h; rfl
  case drw | ldRegs => obtain ⟨u, -, rfl⟩ := map_ok h; simp [HandlerPc, skipTaken]
  case skp | sknp =>
    obtain ⟨k, hk, rfl⟩ := map_ok h
    obtain ⟨hx, rfl⟩ := keyIndex_ok hk
    simp [HandlerPc, skipTaken, hx]
  all_goals (cases h; simp [HandlerPc, skipTaken])

theorem effect_reg {r : Reg} (h : effect i s = .ok t) (hr : ¬ Writes i r) : t.reg r = s.reg r := by
  cases i <;> simp only [effect] at h
  case ret => obtain ⟨_, rfl⟩ := popPc_ok h; rfl
  case call => obtain ⟨u, hu, rfl⟩ := map_ok h; obtain ⟨_, rfl⟩ := pushPc_ok hu; rfl
  case drw =>
    obtain ⟨u, -, rfl⟩ := map_ok h
    exact State.reg_setReg_other (s := s.setFrame _) hr _
  case skp | sknp => obtain ⟨k, -, rfl⟩ := map_ok h; simp
  case ldVxK =>
    split at h <;> cases h
    · rfl
    · exact State.reg_setReg_other hr _
  case ldB | stRegs => obtain ⟨_, rfl⟩ := writeBlock_ok h; rfl
  case ldRegs x =>
    obtain ⟨bs, hbs, rfl⟩ := map_ok h
    obtain ⟨-, rfl⟩ := readBlock_ok hbs
    have hlt : ¬ r.toNat < x.toNat + 1 := fun hlt => hr (Nat.le_of_lt_succ hlt)
    rw [State.reg_setRegs _ _ (by simp; omega)]
    simp [hlt]
  all_goals (cases h; simp_all [Writes, State.reg_setReg, State.reg_setResult])

/-- Settles O26: a raise keeps the register file, an effect writes the registers of `Writes` alone. -/
theorem otherRegistersAreUnchanged : Obligations.OtherRegistersAreUnchanged := by
  intro i s t r h hr
  obtain hx | ⟨e, -, rfl⟩ := exec_cases h
  · exact effect_reg hx hr
  · rfl

/-- The instructions that may change the post-fetch pc, with what the two relative changes are. -/
theorem pc_writers_of_handlerPc (h : HandlerPc i s t) :
    t.pc = s.pc ∨ (∃ nnn, i = .jp nnn ∨ i = .call nnn ∨ i = .jpV0 nnn) ∨ (∃ ign, i = .ret ign) ∨
      (skipTaken s i = some true ∧ t.pc = s.pc + 2) ∨ ∃ x, i = .ldVxK x ∧ t.pc = s.pc - 2 := by
  cases i
  case jp | call | jpV0 | ret => simp
  case ldVxK =>
    simp only [HandlerPc] at h
    split at h <;> simp [h]
  all_goals
    simp only [HandlerPc] at h
    split at h <;> simp [*]

/-- The instructions that may change memory: the two that store bytes. -/
theorem storedBytes_writers (i : Instr) (s : State) :
    storedBytes s i = [] ∨ (∃ x, i = .ldB x) ∨ ∃ x, i = .stRegs x := by
  cases i <;> simp [storedBytes]

/-- Settles O25: a raise changes the latch alone; an effect is framed field by field. -/
theorem stateIsWrittenOnlyByItsWriters : Obligations.StateIsWrittenOnlyByItsWriters := by
  intro i s t h
  obtain hx | ⟨e, -, rfl⟩ := exec_cases h
  · have hk := effect_keepsOtherFields hx
    have hmem : t.mem = s.mem ∨ (∃ x, i = .ldB x) ∨ ∃ x, i = .stRegs x :=
      (storedBytes_writers i s).imp_left fun hn => by rw [(effect_mem hx).2, hn]; rfl
    exact ⟨hk.keys, hk.loadOpen, hk.stack, hk.sp, hk.index, hk.dt, hk.st, hk.frame, hmem, hk.drawn,
      pc_writers_of_handlerPc (effect_pc hx)⟩
  · simp

/-! ### The invariant of the machine (R26) -/

/-- The invariant speaks of memory, `pc` and the stack alone. -/
theorem Inv.of_same (h : Inv s) (hmem : t.mem = s.mem) (hpc : t.pc = s.pc) (hstack : t.stack = s.stack) : Inv t := by
  obtain ⟨hm, hp, hs⟩ := h
  exact ⟨hmem ▸ hm, hpc ▸ hp, hstack ▸ hs⟩

theorem Inv.raise (h : Inv s) (e : DefinedError) : Inv (s.raise e) := h.of_same rfl rfl rfl

/-- What the handlers of a machine with the invariant are given: the post-fetch pc of a word inside memory. -/
structure PostFetch (s : State) : Prop where
  inv : Inv s
  pcLow : 2 ≤ s.pc.toNat
  pcHigh : s.pc.toNat ≤ 0x1000

theorem advance_pc_toNat (h : s.pc.toNat ≤ 0xFFE) : s.advance.pc.toNat = s.pc.toNat + 2 := by
  rw [State.advance_pc]; bv_omega

theorem Inv.advance (h : Inv s) (hp : s.pc.toNat ≤ 0xFFE) : PostFetch s.advance := by
  have hpc := advance_pc_toNat hp
  exact ⟨⟨h.memWf, by omega, h.stackBound⟩, by omega, by omega⟩

theorem effect_memWf (hm : s.mem.wf = true) (h : effect i s = .ok t) : t.mem.wf = true := by
  rw [(effect_mem h).2]; exact Memory.writeBytes_wf hm _ _

/-- The one entry a call writes is the post-fetch pc. -/
theorem effect_stackBound (hs : PostFetch s) (h : effect i s = .ok t) (k : Nat) (hk : k < 16) :
    (t.stack[k]'hk).toNat ≤ 0x1000 := by
  obtain hst | ⟨nnn, rfl⟩ := (effect_keepsOtherFields h).stack
  · rw [hst]; exact hs.inv.stackBound k hk
  · obtain ⟨u, hu, rfl⟩ := map_ok h
    obtain ⟨hsp, rfl⟩ := pushPc_ok hu
    simp only [State.setPc_stack, Vector.getElem_set]
    split
    · exact hs.pcHigh
    · exact hs.inv.stackBound k hk

theorem addrImm_toNat (nnn : Addr) : (addrImm nnn).toNat = nnn.toNat := by
  rw [addrImm, BitVec.toNat_setWidth]; omega

/-- The target of the jump with offset is the sum without wrap (R104). -/
theorem offsetTarget_toNat (s : State) (nnn : Addr) : (offsetTarget s nnn).toNat = nnn.toNat + (s.reg 0).toNat := by
  rw [offsetTarget, BitVec.toNat_add, addrImm_toNat, BitVec.toNat_setWidth]; omega

/-- The largest pc an effect can leave is that of a jump with offset: 0xFFF + 0xFF (R26). -/
theorem effect_pcBound (hs : PostFetch s) (h : effect i s = .ok t) : t.pc.toNat ≤ 0x10FE := by
  have hlow := hs.pcLow
  have hhigh := hs.pcHigh
  have hpc := effect_pc h
  obtain he | ⟨nnn, rfl | rfl | rfl⟩ | ⟨ign, rfl⟩ | ⟨-, he⟩ | ⟨x, -, he⟩ := pc_writers_of_handlerPc hpc
  · rw [he]; omega
  · rw [show t.pc = _ from hpc, addrImm_toNat]; omega
  · rw [show t.pc = _ from hpc, addrImm_toNat]; omega
  · rw [show t.pc = _ from hpc, offsetTarget_toNat]; omega
  · obtain ⟨hsp, rfl⟩ := popPc_ok h
    exact (hs.inv.stackBound _ _).trans (by decide)
  · rw [he]; bv_omega
  · rw [he]; bv_omega

theorem effect_inv (hs : PostFetch s) (h : effect i s = .ok t) : Inv t :=
  ⟨effect_memWf hs.inv.memWf h, effect_pcBound hs h, effect_stackBound hs h⟩

/-- Settles O16: the invariant gives `PostFetch` to the handler, whose effect gives the invariant back; the tick and the latch
are outside it. -/
theorem stepKeepsTheInvariant : Obligations.StepKeepsTheInvariant := by
  intro s s' hs h
  obtain ⟨h0, ⟨-, rfl⟩ | ⟨hp, u, hu, ⟨hn, rfl⟩ | ⟨e, -, rfl⟩⟩⟩ := step_cases h
  · exact hs.raise _
  · have hinv : Inv u := by
      obtain ⟨i, -, hx⟩ | ⟨-, rfl⟩ := runWord_completed (s := s.advance) h0 hu hn
      · exact effect_inv (hs.advance hp) hx
      · exact (hs.advance hp).inv
    exact hinv.of_same rfl rfl rfl
  · exact hs.raise e

/-- Settles O17: the empty list is canonical memory, and every stack entry is 0. -/
theorem resetSatisfiesTheInvariant : Obligations.ResetSatisfiesTheInvariant :=
  ⟨rfl, by decide, fun k hk => by simp [State.reset]⟩

/-- What a next state of Load is: the image copied and Load closed, or `LoadError` latched and nothing copied (R191, R192). -/
theorem hostLoad_cases {bytes : List Byte} (h : hostLoad bytes s = .next t) :
    s.err = none ∧ s.loadOpen = true ∧
      ((bytes.length ≤ Config.maxImage ∧
          t = { s with mem := s.mem.writeBytes Config.progBase bytes, loadOpen := false }) ∨
        (Config.maxImage < bytes.length ∧ t = s.raise (.loadError bytes.length))) := by
  unfold hostLoad at h
  split at h
  · cases h
  · next he =>
    split at h
    · next ho =>
      refine ⟨he, ho, ?_⟩
      unfold loadImage at h
      split at h <;> cases h
      · next hl => exact .inr ⟨hl, rfl⟩
      · next hl => exact .inl ⟨Nat.le_of_not_lt hl, rfl⟩
    · cases h

theorem hostLoad_inv {bytes : List Byte} (hs : Inv s) (h : hostLoad bytes s = .next t) : Inv t := by
  obtain ⟨-, -, ⟨-, rfl⟩ | ⟨-, rfl⟩⟩ := hostLoad_cases h
  · exact ⟨Memory.writeBytes_wf hs.memWf _ _, hs.pcBound, hs.stackBound⟩
  · exact hs.raise _

theorem transact_inv {tr : Transaction} (hs : Inv s) (h : transact tr s = .next t) : Inv t := by
  cases tr with
  | reset => cases h; exact resetSatisfiesTheInvariant.of_same rfl rfl rfl
  | load bytes => exact hostLoad_inv hs h
  | step => exact stepKeepsTheInvariant s t hs h
  | keyWrite k b => cases h; exact hs.of_same rfl rfl rfl
  | frameRead => cases h; exact hs

theorem inv_of_reachable (h : Reachable s) : Inv s := by
  induction h with
  | reset => exact resetSatisfiesTheInvariant
  | next tr _ ht ih => exact transact_inv ih ht

/-- Settles O18: by induction on the transactions; the bound on `pc` leaves room for the 4. -/
theorem reachableStatesSatisfyTheInvariant : Obligations.ReachableStatesSatisfyTheInvariant := by
  refine ⟨fun tr s s' => transact_inv, fun s hs => ?_⟩
  have hinv := inv_of_reachable hs
  have hpc := hinv.pcBound
  exact ⟨hinv, by bv_omega⟩

/-! ### `pc` after each Step (R25) -/

/-- The comparison of a skip does not see the advance. -/
theorem skipTaken_advance (s : State) (i : Instr) : skipTaken s.advance i = skipTaken s i := by cases i <;> rfl

/-- R25's `a + 4` or `a + 2`, told from the address `a` of the instruction. -/
theorem skip_pc_toNat (hp : s.pc.toNat ≤ 0xFFE)
    (h : t.pc = if skipTaken s.advance i = some true then s.advance.pc + 2 else s.advance.pc) :
    t.pc.toNat = s.pc.toNat + (if skipTaken s i = some true then 4 else 2) := by
  have hadv := advance_pc_toNat hp
  rw [h, skipTaken_advance]
  split
  · bv_omega
  · exact hadv

theorem effect_pcAfter (hp : s.pc.toNat ≤ 0xFFE) (h : effect i s.advance = .ok t) : PcAfter s t i := by
  have hpc := effect_pc h
  cases i
  case jp nnn => exact (congrArg BitVec.toNat hpc).trans (addrImm_toNat nnn)
  case jpV0 nnn => exact (congrArg BitVec.toNat hpc).trans (offsetTarget_toNat s.advance nnn)
  case call nnn =>
    obtain ⟨u, hu, rfl⟩ := map_ok h
    exact ⟨addrImm_toNat nnn, u, hu, rfl, rfl⟩
  case ret =>
    obtain ⟨hsp, rfl⟩ := popPc_ok h
    exact ⟨_, popPc_of_pos hsp, rfl⟩
  case ldVxK x =>
    have hadv := advance_pc_toNat hp
    replace hpc : t.pc = if s.firstKey = none then s.advance.pc - 2 else s.advance.pc := hpc
    constructor
    · intro hnone
      rw [hpc, if_pos (firstKey_eq_none.2 hnone)]
      bv_omega
    · rintro ⟨k, hk⟩
      rw [hpc, if_neg fun hnone => by simp [firstKey_eq_none.1 hnone k] at hk]
      exact hadv
  case seKk | sneKk | seVy | sneVy | skp | sknp => exact skip_pc_toNat hp hpc
  all_goals simpa [PcAfter, skipTaken] using skip_pc_toNat hp hpc

/-- Settles O37: a Step that completes leaves `pc` as the handler did, and the handler ran two beyond the word. -/
theorem pcAfterEachStepIsAsTabled : Obligations.PcAfterEachStepIsAsTabled := by
  refine ⟨rfl, fun s t w h0 hf h ht => ?_⟩
  obtain ⟨-, hp, u, hu, hn, rfl⟩ := step_completed h ht
  obtain rfl : s.mem.wordAt s.pc.toNat = w := by simpa [fetch_inside hp] using hf
  refine ⟨rfl, ⟨u, hu, rfl⟩, fun i hd => ?_, fun e hd => ?_⟩
  · obtain ⟨j, hj, hx⟩ | ⟨⟨e, he⟩, -⟩ := runWord_completed (s := s.advance) h0 hu hn
    · obtain rfl : j = i := by simpa [hd] using hj.symm
      exact effect_pcAfter (t := u) hp hx
    · simp [hd] at he
  · rw [runWord_rejected hd] at hu
    cases hu
    exact advance_pc_toNat hp

/-! ### State that most instructions cannot see (R28, R29) -/

/-- The call stack changed by `f` and the sound timer by `g`: what only 2nnn and 00EE, and only Fx18, have to do with. -/
def State.mapUnseen (f : Vector Word 16 → Vector Word 16) (g : Byte → Byte) (s : State) : State :=
  { s with stack := f s.stack, st := g s.st }

section Unseen
variable (f : Vector Word 16 → Vector Word 16) (g : Byte → Byte)

theorem readBlock_mapUnseen (a n : Nat) : readBlock (s.mapUnseen f g) a n = readBlock s a n := by
  induction n generalizing a with
  | zero => rfl
  | succ n ih => simp only [readBlock, ih]; rfl

theorem writeBlock_mapUnseen (a : Nat) (bs : List Byte) :
    writeBlock (s.mapUnseen f g) a bs = (writeBlock s a bs).map (State.mapUnseen f g) := by
  by_cases hf : bs = [] ∨ a + bs.length ≤ 0x1000
  · rw [writeBlock_inside hf, writeBlock_inside hf]; rfl
  · rw [not_or] at hf
    rw [writeBlock_outside hf.1 (by omega), writeBlock_outside hf.1 (by omega)]; rfl

theorem setRegs_mapUnseen (k : Nat) (bs : List Byte) :
    (s.mapUnseen f g).setRegs k bs = (s.setRegs k bs).mapUnseen f g := by
  induction bs generalizing s k with
  | nil => rfl
  | cons b bs ih => exact ih (s := s.setReg _ b) (k + 1)

theorem skipIf_mapUnseen (c : Bool) : (s.mapUnseen f g).skipIf c = (s.skipIf c).mapUnseen f g := by cases c <;> rfl

/-- An operation whose continuation does not see the two fields. -/
theorem map_mapUnseen {α : Type} {r : Except DefinedError α} {h h' : α → State}
    (hh : ∀ a, h' a = (h a).mapUnseen f g) : r.map h' = (r.map h).map (State.mapUnseen f g) := by
  cases r with
  | ok a => exact congrArg Except.ok (hh a)
  | error e => rfl

theorem pushPc_mapSt : pushPc (s.mapUnseen id g) = (pushPc s).map (State.mapUnseen id g) := by
  by_cases hs : s.sp.val < 16
  · rw [pushPc_of_lt hs, pushPc_of_lt (s := s.mapUnseen id g) hs]; rfl
  · have hfull : s.sp.val = 16 := by omega
    rw [pushPc_of_full hfull, pushPc_of_full (s := s.mapUnseen id g) hfull]; rfl

theorem popPc_mapSt : popPc (s.mapUnseen id g) = (popPc s).map (State.mapUnseen id g) := by
  by_cases hs : 0 < s.sp.val
  · rw [popPc_of_pos hs, popPc_of_pos (s := s.mapUnseen id g) hs]; rfl
  · have hempty : s.sp.val = 0 := by omega
    rw [popPc_of_empty hempty, popPc_of_empty (s := s.mapUnseen id g) hempty]; rfl

/-- An effect is the same whatever the stack holds, but for 2nnn and 00EE, and whatever the sound timer holds, but for Fx18. -/
theorem effect_mapUnseen (hstack : (∃ nnn, i = .call nnn) ∨ (∃ ign, i = .ret ign) → f = id)
    (hst : (∃ x, i = .ldStVx x) → g = id) :
    effect i (s.mapUnseen f g) = (effect i s).map (State.mapUnseen f g) := by
  cases i
  case ret => obtain rfl := hstack (.inr ⟨_, rfl⟩); exact popPc_mapSt g
  case call nnn =>
    obtain rfl := hstack (.inl ⟨_, rfl⟩)
    simp only [effect, pushPc_mapSt]
    cases pushPc s <;> rfl
  case ldStVx => obtain rfl := hst ⟨_, rfl⟩; rfl
  case seKk | sneKk | seVy | sneVy => exact congrArg Except.ok (skipIf_mapUnseen f g _)
  case skp | sknp => exact map_mapUnseen f g fun k => skipIf_mapUnseen f g _
  case ldVxK x =>
    simp only [effect, show (s.mapUnseen f g).firstKey = s.firstKey from rfl]
    cases s.firstKey <;> rfl
  case drw =>
    simp only [effect, readBlock_mapUnseen]
    exact map_mapUnseen f g fun rows => rfl
  case ldRegs =>
    simp only [effect, readBlock_mapUnseen]
    exact map_mapUnseen f g fun bs => setRegs_mapUnseen f g 0 bs
  case ldB | stRegs => exact writeBlock_mapUnseen f g _ _
  all_goals rfl

/-- Every instruction answers a next state. -/
theorem exec_next (i : Instr) (s : State) : ∃ t, exec i s = .next t := by
  obtain ⟨t, -, ht⟩ | ⟨e, -, ht⟩ := commit_cases (s := s) (effect i s) <;> exact ⟨_, (exec_eq_commit i s).trans ht⟩

theorem exec_mapUnseen (hstack : (∃ nnn, i = .call nnn) ∨ (∃ ign, i = .ret ign) → f = id)
    (hst : (∃ x, i = .ldStVx x) → g = id) (h : exec i s = .next t) :
    exec i (s.mapUnseen f g) = .next (t.mapUnseen f g) := by
  rw [exec_eq_commit, effect_mapUnseen f g hstack hst]
  obtain hx | ⟨e, hx, rfl⟩ := exec_cases h <;> rw [hx] <;> rfl

end Unseen

/-- Settles O27: the sound timer alone changed is `mapUnseen` with the stack kept; Fx18 overwrites it. -/
theorem soundTimerIsNeverRead : Obligations.SoundTimerIsNeverRead := by
  refine ⟨fun i s t b hi h => ?_, fun _ _ _ => rfl⟩
  have hst : (∃ x, i = .ldStVx x) → (fun _ : Byte => b) = id := fun ⟨x, hx⟩ => absurd hx (hi x)
  exact exec_mapUnseen id (fun _ => b) (fun _ => rfl) hst h

/-! ### Popped entries (R28) -/

theorem agreeBelowSp_iff :
    AgreeBelowSp s s' ↔ ∃ S, (∀ k (h : k < 16), k < s.sp.val → S[k] = s.stack[k]) ∧ s' = { s with stack := S } := by
  constructor
  · rintro ⟨he, hk⟩
    exact ⟨s'.stack, hk, he⟩
  · rintro ⟨S, hk, rfl⟩
    exact ⟨rfl, hk⟩

/-- Two outcomes that are next states which agree below `sp`. -/
def AgreeingNext (r r' : Result) : Prop := ∃ t t', r = .next t ∧ r' = .next t' ∧ AgreeBelowSp t t'

namespace AgreeBelowSp

theorem next (h : AgreeBelowSp s s') : AgreeingNext (.next s) (.next s') := ⟨s, s', rfl, rfl, h⟩

/-- An update that does not see the stack and changes neither it nor `sp` keeps the agreement. -/
theorem map {u : State → State} (h : AgreeBelowSp s s') (hu : ∀ S, u { s with stack := S } = { u s with stack := S })
    (hsp : (u s).sp = s.sp) (hstack : (u s).stack = s.stack) : AgreeBelowSp (u s) (u s') := by
  obtain ⟨S, hS, rfl⟩ := agreeBelowSp_iff.1 h
  exact agreeBelowSp_iff.2 ⟨S, by simpa only [hsp, hstack] using hS, hu S⟩

theorem raise (h : AgreeBelowSp s s') (e : DefinedError) : AgreeBelowSp (s.raise e) (s'.raise e) :=
  h.map (u := (State.raise · e)) (fun _ => rfl) rfl rfl

theorem advance (h : AgreeBelowSp s s') : AgreeBelowSp s.advance s'.advance :=
  h.map (u := State.advance) (fun _ => rfl) rfl rfl

/-- A call leaves the pushed entry, the same in both, as the last one in use. -/
theorem call_agree (h : AgreeBelowSp s s') (nnn : Addr) : AgreeingNext (exec (.call nnn) s) (exec (.call nnn) s') := by
  obtain ⟨S, hS, rfl⟩ := agreeBelowSp_iff.1 h
  simp only [exec_eq_commit, effect]
  by_cases hlt : s.sp.val < 16
  · rw [pushPc_of_lt hlt, pushPc_of_lt (s := { s with stack := S }) hlt]
    refine next ⟨rfl, fun k hk16 hk => ?_⟩
    change (S.set s.sp.val s.pc)[k] = (s.stack.set s.sp.val s.pc)[k]
    rw [Vector.getElem_set, Vector.getElem_set]
    split
    · rfl
    · exact hS k hk16 (by simp only [State.setPc_sp] at hk; omega)
  · have hfull : s.sp.val = 16 := by omega
    rw [pushPc_of_full hfull, pushPc_of_full (s := { s with stack := S }) hfull]
    exact (h.raise _).next

/-- A return reads the last entry in use, the same in both. -/
theorem ret_agree (h : AgreeBelowSp s s') (ign : Byte) : AgreeingNext (exec (.ret ign) s) (exec (.ret ign) s') := by
  obtain ⟨S, hS, rfl⟩ := agreeBelowSp_iff.1 h
  simp only [exec_eq_commit, effect]
  by_cases hpos : 0 < s.sp.val
  · rw [popPc_of_pos hpos, popPc_of_pos (s := { s with stack := S }) hpos]
    refine next (agreeBelowSp_iff.2 ⟨S, fun k hk16 hk => ?_, ?_⟩)
    · exact hS k hk16 (by simp only at hk; omega)
    · simp only [hS (s.sp.val - 1) (by omega) (by omega)]
  · have hempty : s.sp.val = 0 := by omega
    rw [popPc_of_empty hempty, popPc_of_empty (s := { s with stack := S }) hempty]
    exact (h.raise _).next

/-- Every instruction but 2nnn and 00EE has nothing to do with the stack (`exec_mapUnseen`). -/
theorem exec_agree (h : AgreeBelowSp s s') (i : Instr) : AgreeingNext (exec i s) (exec i s') := by
  by_cases hi : (∃ nnn, i = .call nnn) ∨ ∃ ign, i = .ret ign
  · obtain ⟨nnn, rfl⟩ | ⟨ign, rfl⟩ := hi
    · exact h.call_agree nnn
    · exact h.ret_agree ign
  · obtain ⟨S, hS, rfl⟩ := agreeBelowSp_iff.1 h
    obtain ⟨t, ht⟩ := exec_next i s
    obtain ⟨-, -, hstack, hsp, -⟩ := stateIsWrittenOnlyByItsWriters i s t ht
    replace hstack := hstack.resolve_right fun hc => hi (.inl hc)
    replace hsp := hsp.resolve_right hi
    refine ⟨t, { t with stack := S }, ht, exec_mapUnseen (fun _ => S) id (absurd · hi) (fun _ => rfl) ht, rfl, ?_⟩
    simpa only [hsp, hstack] using hS

theorem runWord_agree (h : AgreeBelowSp s s') (w : Word) : AgreeingNext (runWord w s) (runWord w s') := by
  cases hd : decode w with
  | ok i => rw [runWord_decoded hd, runWord_decoded hd]; exact h.exec_agree i
  | error e => rw [runWord_rejected hd, runWord_rejected hd]; exact h.next

theorem closeStep_agree (h : AgreeBelowSp s s') {r r' : Result} (hr : AgreeingNext r r') :
    AgreeingNext (closeStep s r) (closeStep s' r') := by
  obtain ⟨t, t', rfl, rfl, ht⟩ := hr
  have herr : t'.err = t.err := by rw [ht.1]
  cases he : t.err with
  | none =>
    rw [closeStep_ok he, closeStep_ok (herr.trans he)]
    exact (ht.map (u := fun t => { t.tick with loadOpen := false }) (fun _ => rfl) rfl rfl).next
  | some e =>
    rw [closeStep_raised he, closeStep_raised (herr.trans he)]
    exact (h.raise e).next

theorem cycle_agree (h : AgreeBelowSp s s') : AgreeingNext (cycle s) (cycle s') := by
  have hpc : s'.pc = s.pc := by rw [h.1]
  have hmem : s'.mem = s.mem := by rw [h.1]
  by_cases hp : s.pc.toNat ≤ 0xFFE
  · rw [cycle_inside hp, cycle_inside (s := s') (hpc ▸ hp), hmem, hpc]
    exact h.closeStep_agree (h.advance.runWord_agree _)
  · rw [cycle_outside (by omega), cycle_outside (s := s') (by rw [hpc]; omega), hpc]
    exact (h.raise _).next

end AgreeBelowSp

/-- Settles O28: the agreement passes through the stages of a Step, and the latch is the same in both states. -/
theorem poppedEntriesAreUnobservable : Obligations.PoppedEntriesAreUnobservable := by
  intro s s' h
  have herr : s'.err = s.err := by rw [h.1]
  cases he : s.err with
  | some e =>
    rw [step_latched he, step_latched (herr.trans he)]
    exact ⟨nofun, fun _ hf => hf⟩
  | none =>
    obtain ⟨t, t', ht, ht', hagree⟩ := h.cycle_agree
    rw [step_running he, step_running (herr.trans he), ht, ht']
    refine ⟨fun u hu => ?_, nofun⟩
    cases hu
    exact ⟨t', rfl, hagree⟩

/-! ### The state after reset (R36) -/

theorem resetByte_outside {a : Nat} (h : a < 0x50 ∨ 0xA0 ≤ a) : resetByte a = 0 := by
  have hf : Config.fontBase = 0x50 := rfl
  rw [resetByte, if_neg (by omega)]

/-- Whatever state Reset is asked of, the state it leaves is that of reset but for the count of draws. -/
theorem reset_or_hostReset {m : State} (h : m = State.reset ∨ ∃ s, transact .reset s = .next m) :
    ∃ d, m = { State.reset with drawn := d } := by
  obtain rfl | ⟨s, hs⟩ := h
  · exact ⟨0, rfl⟩
  · cases hs; exact ⟨s.drawn, rfl⟩

/-- Settles O21: each value read off the reset state, where only the count of draws is open. -/
theorem resetLeavesTheStatedValues : Obligations.ResetLeavesTheStatedValues := by
  refine ⟨fun s => ⟨hostReset s, rfl, rfl⟩, fun m hm => ?_⟩
  obtain ⟨d, rfl⟩ := reset_or_hostReset hm
  refine ⟨?_, rfl, rfl, ?_, rfl, rfl, rfl, ?_, ?_, rfl, rfl, rfl, fun a => resetByte_outside, ?_, ?_⟩
  · intro r; simp [State.reg, State.reset]
  · intro k hk; simp [State.reset]
  · intro k; simp [State.key, State.reset]
  · exact Frame.pixel_blank
  · rfl
  · rfl

/-! ### The host's key write and framebuffer read (R30, R31, R194) -/

theorem key_hostKey (s : State) (k j : Reg) (b : Bool) : (hostKey k b s).key j = if j = k then b else s.key j := by
  simp only [State.key, hostKey, Vector.getElem_set, eq_comm (a := j), BitVec.toNat_inj]

/-- In a list of rows of one length, element `x` of row `y` stands at `y` times the length plus `x`. -/
theorem getElem?_flatten_rows {α : Type} {n : Nat} {rows : List (List α)} (h : ∀ r ∈ rows, r.length = n) {x y : Nat}
    (hx : x < n) : rows.flatten[y * n + x]? = rows[y]?.bind (·[x]?) := by
  induction rows generalizing y with
  | nil => simp
  | cons r rows ih =>
    obtain ⟨hr, hrows⟩ := List.forall_mem_cons.1 h
    rw [List.flatten_cons]
    cases y with
    | zero => rw [List.getElem?_append_left (by omega)]; simp
    | succ y =>
      have hlen : r.length ≤ (y + 1) * n + x := by rw [hr, Nat.succ_mul]; omega
      have hsub : (y + 1) * n + x - r.length = y * n + x := by rw [hr, Nat.succ_mul]; omega
      rw [List.getElem?_append_right hlen, List.getElem?_cons_succ, ← ih hrows, hsub]

/-- Settles O24: the framebuffer read is 32 rows of 64 pixels, one after another. -/
theorem hostWritesKeysAndReadsPixels : Obligations.HostWritesKeysAndReadsPixels := by
  refine ⟨key_hostKey, fun _ _ _ => rfl, fun s => ?_, fun s px py => ?_⟩
  · simp [hostFrame, List.length_flatMap]
  · rw [hostFrame, List.flatMap_def, getElem?_flatten_rows (by simp) px.isLt]
    simp [Frame.pixel]

end Sys2Proof.Machine

/-! The family of spec/20_memory.md: the checked accesses (R55, R56), the byte order of the fetch and of Load (R53), stores seen
by the next fetch (R63), and that the canonical form of memory is the only one with its reads (R50). -/

namespace Sys2Proof.Machine

variable {s t : State} {i : Instr}

/-! ### Accesses and their bounds (R55, R92) -/

/-- The fetch puts the byte at `pc` before the one after it (R53). -/
theorem fetch_of_reads {hi lo : Byte} (hp : s.pc.toNat ≤ 0xFFE) (hhi : s.mem.read s.pc.toNat = hi)
    (hlo : s.mem.read (s.pc.toNat + 1) = lo) : fetch s = .ok (Word.ofBytes hi lo) := by
  subst hhi hlo
  exact fetch_inside hp

/-- Settles O20: each access is its lemma inside and outside the bound; the two bytes of a fetch lie inside memory. -/
theorem memoryAccessesAreBoundedNotWrapped : Obligations.MemoryAccessesAreBoundedNotWrapped := by
  refine ⟨fun s a => ⟨memRead_outside, memRead_inside⟩, fun s a b hm => ⟨(memWrite_outside · b), fun ha => ?_⟩,
    fun s => ⟨fetch_outside, fun hp => ?_⟩⟩
  · exact ⟨_, memWrite_inside ha b, rfl, Memory.read_write hm (Nat.lt_succ_of_le ha) b⟩
  · exact ⟨_, _, _, fetch_inside hp, memRead_inside (by omega), memRead_inside (by omega), s.mem.wordAt_toNat _⟩

/-! ### Byte order (R53) -/

/-- A Load that raised nothing took an image that fits, and byte `k` of it stands at 0x200 + `k` (R191). -/
theorem hostLoad_read {bytes : List Byte} (hm : s.mem.wf = true) (h : hostLoad bytes s = .next t) (ht : t.err = none) :
    bytes.length ≤ 3584 ∧ ∀ k (hk : k < bytes.length), t.mem.read (0x200 + k) = bytes[k] := by
  obtain ⟨-, -, ⟨hlen, rfl⟩ | ⟨-, rfl⟩⟩ := hostLoad_cases h
  · have hmax : Config.maxImage = 3584 := rfl
    have hfit : 0x200 + bytes.length ≤ Config.memSize := Nat.add_le_add_left hlen 0x200
    refine ⟨hmax ▸ hlen, fun k hk => (Memory.read_writeBytes hm hfit _).trans ?_⟩
    rw [if_pos (by omega), Nat.add_sub_cancel_left, List.getD_eq_getElem _ _ hk]
  · cases ht

/-- Settles O11: the word at an address as a number, and of a loaded image the two bytes there. -/
theorem fetchAndImageAreBigEndian : Obligations.FetchAndImageAreBigEndian := by
  refine ⟨fun s hp => ⟨_, fetch_inside hp, s.mem.wordAt_toNat _⟩, fun s t bytes j hj hm ht h => ?_⟩
  obtain ⟨hlen, hread⟩ := hostLoad_read hm h ht
  have hpc : (BitVec.ofNat 16 (0x200 + 2 * j)).toNat = 0x200 + 2 * j := by rw [BitVec.toNat_ofNat]; omega
  refine ⟨_, fetch_inside (s := { t with pc := BitVec.ofNat 16 (0x200 + 2 * j) }) (by rw [hpc]; omega), ?_⟩
  rw [hpc, Memory.wordAt_toNat, hread, Nat.add_assoc, hread]

/-! ### Stores and the next fetch (R63) -/

/-- What an instruction stores, and where, does not depend on `pc`. -/
theorem byteAfter_advance (s : State) (i : Instr) (a : Nat) : byteAfter s.advance i a = byteAfter s i a := by cases i <;> rfl

/-- On a clear latch, an instruction that raised nothing had its effect. -/
theorem effect_of_exec (h0 : s.err = none) (h : exec i s = .next t) (ht : t.err = none) : effect i s = .ok t := by
  obtain ⟨hx, -⟩ | ⟨e, -, rfl⟩ := exec_cases_of_running h0 h
  · exact hx
  · cases ht

/-- Settles O54: after an effect every byte is `byteAfter`, and the end of a Step leaves memory alone. -/
theorem fetchSeesStoredBytes : Obligations.FetchSeesStoredBytes := by
  refine ⟨fun i s t p hm h0 h ht hp => ?_, fun i s t hm _ hd h ht hp => ?_⟩
  · have hx : effect i s = .ok t := effect_of_exec h0 h ht
    exact fetch_of_reads hp (effect_read hm hx _) (effect_read hm hx _)
  · obtain ⟨h0, -, u, hu, hn, rfl⟩ := step_completed h ht
    have hx : effect i s.advance = .ok u := effect_of_exec h0 ((runWord_decoded hd).symm.trans hu) hn
    have hread (a : Nat) : u.mem.read a = byteAfter s i a :=
      (effect_read (s := s.advance) hm hx a).trans (byteAfter_advance s i a)
    exact fetch_of_reads hp (hread _) (hread _)

/-! ### Canonical memories (R50) -/

/-- The first listed cell reads as its byte, which no memory whose cells all lie beyond it reads there. -/
theorem Memory.read_head_ne {lo a : Nat} {b : Byte} {m m' : Memory} (hm : Memory.wfFrom lo ((a, b) :: m) = true)
    (hm' : Memory.wfFrom (a + 1) m' = true) : Memory.read ((a, b) :: m) a ≠ m'.read a := by
  obtain ⟨-, -, hb, -⟩ := Memory.wfFrom_cons.1 hm
  rw [Memory.read, if_pos rfl, Memory.read_below (Nat.lt_succ_self a) hm']
  exact hb

/-- Beyond the first listed cell the rest of the list is read. -/
theorem Memory.read_tail {a x : Nat} (h : a < x) (b : Byte) (m : Memory) : Memory.read ((a, b) :: m) x = m.read x := by
  rw [Memory.read, if_neg (by omega), if_neg (by omega)]

/-- Canonical memories with the same reads list the same cells: two first cells at different addresses would differ in the read
of the lower one. -/
theorem Memory.eq_of_read_eq {lo : Nat} {m m' : Memory} (hm : Memory.wfFrom lo m = true) (hm' : Memory.wfFrom lo m' = true)
    (h : ∀ a, lo ≤ a → a < Config.memSize → m.read a = m'.read a) : m = m' := by
  induction m generalizing lo m' with
  | nil =>
    match m' with
    | [] => rfl
    | (c, d) :: m' =>
      obtain ⟨hc, hcmem, -, -⟩ := Memory.wfFrom_cons.1 hm'
      exact absurd (h c hc hcmem).symm (Memory.read_head_ne hm' rfl)
  | cons cell m ih =>
    obtain ⟨a, b⟩ := cell
    obtain ⟨ha, hamem, hb, hmtail⟩ := Memory.wfFrom_cons.1 hm
    match m' with
    | [] => exact absurd (h a ha hamem) (Memory.read_head_ne hm rfl)
    | (c, d) :: m' =>
      obtain ⟨hc, hcmem, hd, hmtail'⟩ := Memory.wfFrom_cons.1 hm'
      obtain hlt | rfl | hgt := Nat.lt_trichotomy a c
      · exact absurd (h a ha hamem) (Memory.read_head_ne hm (Memory.wfFrom_cons.2 ⟨hlt, hcmem, hd, hmtail'⟩))
      · have hbd : b = d := by simpa [Memory.read] using h a ha hamem
        have htail : m = m' := ih hmtail hmtail' fun x hx hxmem => by
          rw [← Memory.read_tail hx b m, ← Memory.read_tail hx d m']
          exact h x (by omega) hxmem
        rw [hbd, htail]
      · exact absurd (h c hc hcmem).symm (Memory.read_head_ne hm' (Memory.wfFrom_cons.2 ⟨hgt, hamem, hb, hmtail⟩))

/-- Settles O19: canonical memory is canonical from address 0 on. -/
theorem canonicalMemoriesAreDeterminedByReads : Obligations.CanonicalMemoriesAreDeterminedByReads :=
  fun _ _ hm hm' h => Memory.eq_of_read_eq hm hm' fun a _ => h a

end Sys2Proof.Machine

/-! The family of spec/30_encoding.md: decoding and encoding undo each other (R70 to R73), the decoder rejects the listed words
alone and is the opcode map (R74 to R76, R78), and unread bits change nothing (R77). -/

namespace Sys2Proof

open Machine

variable {w : Word} {i : Instr}

/-! ### Decoding an instruction's word -/

theorem decode_encode (i : Instr) : decode (encode i) = .ok i := by
  cases i with
  | cls | ret => simp [encode, decode, decodeClass0]
  | ldVy | orVy | andVy | xorVy | addVy | subVy | shr | subnVy | shl => simp [encode, decode, decodeClass8]
  | skp | sknp => simp [encode, decode, decodeClassE]
  | ldVxDt | ldVxK | ldDtVx | ldStVx | addI | ldF | ldB | stRegs | ldRegs => simp [encode, decode, decodeClassF]
  | _ => simp [encode, decode]

theorem decodeBytes_encodeBytes (i : Instr) (rest : List Byte) : decodeBytes (encodeBytes i ++ rest) = .ok (i, rest) := by
  have hword : Word.ofBytes (Word.hi (encode i)) (Word.lo (encode i)) = encode i := rebuild_bytes (encode i)
  simp [encodeBytes, decodeBytes, hword, decode_encode, Except.map]

/-- Settles O2: class and sub-key of an instruction's word lead to its arm, whose fields are the operands. -/
theorem decodeOfEncode : Obligations.DecodeOfEncode := ⟨decode_encode, decodeBytes_encodeBytes⟩

/-- Settles O1: thirteen closed decodings, computed. -/
theorem decodeReadsTheSpecsWords : Obligations.DecodeReadsTheSpecsWords := by
  unfold Obligations.DecodeReadsTheSpecsWords
  decide

/-! ### A word with its class and sub-key known (R71, R72) -/

section Formats
variable {c n : Nibble} {kk : Byte}

theorem formatA_eq_iff : c ++ Word.nnn w = w ↔ Word.cls w = c :=
  ⟨fun h => h ▸ cls_formatA _ _, fun hc => hc ▸ rebuild_formatA w⟩

theorem formatXK_eq_iff : c ++ Word.x w ++ kk = w ↔ Word.cls w = c ∧ Word.kk w = kk :=
  ⟨fun h => h ▸ ⟨cls_formatXK _ _ _, kk_formatXK _ _ _⟩, fun ⟨hc, hk⟩ => hc ▸ hk ▸ rebuild_formatXK w⟩

theorem formatZ_eq_iff : c ++ Word.mid w ++ n = w ↔ Word.cls w = c ∧ Word.n w = n :=
  ⟨fun h => h ▸ ⟨cls_formatZ _ _ _, n_formatZ _ _ _⟩, fun ⟨hc, hn⟩ => hc ▸ hn ▸ rebuild_formatZ w⟩

theorem formatXYN_eq_iff : c ++ Word.x w ++ Word.y w ++ n = w ↔ Word.cls w = c ∧ Word.n w = n :=
  ⟨fun h => h ▸ ⟨cls_formatXYN _ _ _ _, n_formatXYN _ _ _ _⟩, fun ⟨hc, hn⟩ => hc ▸ hn ▸ rebuild_formatXYN w⟩

end Formats

/-! ### Encoding what was decoded -/

theorem encode_of_decodeClass0 (hc : Word.cls w = 0x0#4) (h : decodeClass0 w = .ok i) : encode i = w := by
  unfold decodeClass0 at h
  split at h <;> cases h <;> exact formatZ_eq_iff.2 ⟨hc, ‹_›⟩

theorem encode_of_decodeClass8 (hc : Word.cls w = 0x8#4) (h : decodeClass8 w = .ok i) : encode i = w := by
  unfold decodeClass8 at h
  split at h <;> cases h <;> exact formatXYN_eq_iff.2 ⟨hc, ‹_›⟩

theorem encode_of_decodeClassE (hc : Word.cls w = 0xE#4) (h : decodeClassE w = .ok i) : encode i = w := by
  unfold decodeClassE at h
  split at h <;> cases h <;> exact formatXYN_eq_iff.2 ⟨hc, ‹_›⟩

theorem encode_of_decodeClassF (hc : Word.cls w = 0xF#4) (h : decodeClassF w = .ok i) : encode i = w := by
  unfold decodeClassF at h
  split at h <;> cases h <;> exact formatXK_eq_iff.2 ⟨hc, ‹_›⟩

/-- Four classes have a secondary decode; a word of any other class is an instruction, whatever its other bits (R74). -/
theorem decode_class_cases (w : Word) :
    Word.cls w = 0x0#4 ∨ Word.cls w = 0x8#4 ∨ Word.cls w = 0xE#4 ∨ Word.cls w = 0xF#4 ∨
    (Word.cls w ∉ [0x0#4, 0x8#4, 0xE#4, 0xF#4] ∧ ∃ i, decode w = .ok i ∧ encode i = w) := by
  have hlast := nibble_last (Word.cls w)
  iterate 4 refine or_iff_not_imp_left.2 fun _ => ?_
  refine ⟨by simp [*], ?_⟩
  unfold decode
  split -- the secondary classes, then the arms by format: nnn, x y n, x kk (R72)
  case h_1 | h_9 | h_15 | h_16 => simp_all
  case h_2 hc | h_3 hc | h_11 hc | h_12 hc => exact ⟨_, rfl, formatA_eq_iff.2 hc⟩
  case h_6 hc | h_10 hc | h_14 hc => exact ⟨_, rfl, formatXYN_eq_iff.2 ⟨hc, rfl⟩⟩
  case h_4 hc | h_5 hc | h_7 hc | h_8 hc | h_13 hc => exact ⟨_, rfl, formatXK_eq_iff.2 ⟨hc, rfl⟩⟩

theorem encode_of_decode (h : decode w = .ok i) : encode i = w := by
  obtain hc | hc | hc | hc | ⟨-, j, hj, hw⟩ := decode_class_cases w
  · exact encode_of_decodeClass0 hc (decode_class0 hc ▸ h)
  · exact encode_of_decodeClass8 hc (decode_class8 hc ▸ h)
  · exact encode_of_decodeClassE hc (decode_classE hc ▸ h)
  · exact encode_of_decodeClassF hc (decode_classF hc ▸ h)
  · obtain rfl : j = i := Except.ok.inj (hj.symm.trans h)
    exact hw

/-- Settles O3: a word is put together again from its class, its sub-key and the fields of its format. -/
theorem encodeOfDecode : Obligations.EncodeOfDecode := fun _ _ => encode_of_decode

theorem decode_eq_ok_iff : decode w = .ok i ↔ encode i = w := ⟨encode_of_decode, fun h => h ▸ decode_encode i⟩

/-! ### The words that decode to nothing (R78) -/

theorem decodeClass0_rejects_iff : (∃ e, decodeClass0 w = .error e) ↔ Word.n w ∉ [0x0#4, 0xE#4] := by
  unfold decodeClass0
  split <;> simp_all

/-- The low nibbles of class 0x8 that R78 lists are those of no row of R76. -/
theorem class8_unlisted_iff (n : Nibble) : n ∈ [0x8#4, 0x9#4, 0xA#4, 0xB#4, 0xC#4, 0xD#4, 0xF#4] ↔
    n ∉ [0x0#4, 0x1#4, 0x2#4, 0x3#4, 0x4#4, 0x5#4, 0x6#4, 0x7#4, 0xE#4] := by
  revert n; decide

theorem decodeClass8_rejects_iff : (∃ e, decodeClass8 w = .error e) ↔
    Word.n w ∈ [0x8#4, 0x9#4, 0xA#4, 0xB#4, 0xC#4, 0xD#4, 0xF#4] := by
  rw [class8_unlisted_iff]
  unfold decodeClass8
  split <;> simp_all

theorem decodeClassE_rejects_iff : (∃ e, decodeClassE w = .error e) ↔ Word.n w ∉ [0x1#4, 0xE#4] := by
  unfold decodeClassE
  split <;> simp_all

theorem decodeClassF_rejects_iff : (∃ e, decodeClassF w = .error e) ↔
    Word.kk w ∉ [0x07#8, 0x0A#8, 0x15#8, 0x18#8, 0x1E#8, 0x29#8, 0x33#8, 0x55#8, 0x65#8] := by
  unfold decodeClassF
  split <;> simp_all

/-- Settles O5: the classes with a secondary decode reject by their sub-key, the other classes never. -/
theorem unrecognisedWordsAreTheListedOnes : Obligations.UnrecognisedWordsAreTheListedOnes := by
  intro w
  obtain hc | hc | hc | hc | ⟨hc, i, hi, -⟩ := decode_class_cases w
  · rw [decode_class0 hc, decodeClass0_rejects_iff]; simp [Unrecognised, hc]
  · rw [decode_class8 hc, decodeClass8_rejects_iff]; simp [Unrecognised, hc]
  · rw [decode_classE hc, decodeClassE_rejects_iff]; simp [Unrecognised, hc]
  · rw [decode_classF hc, decodeClassF_rejects_iff]; simp [Unrecognised, hc]
  · simp_all [Unrecognised]

/-! ### The rows of the opcode map (R76)

The words of an instruction are those that put the row's class and sub-key around the fields its format (R72) leaves free, and
the row's mask reads just that class and sub-key. -/

section Rows
variable {c n : Nibble} {kk : Byte} {build : Word → Instr}

theorem encodes_formatA (c : Nibble) (h : ∀ w, encode (build w) = c ++ Word.nnn w) : Encodes 0xF000#16 (c ++ 0#12) build :=
  fun w => by rw [decode_eq_ok_iff, h, formatA_eq_iff, mask_class]

theorem encodes_formatXK (c : Nibble) (h : ∀ w, encode (build w) = c ++ Word.x w ++ Word.kk w) :
    Encodes 0xF000#16 (c ++ 0#12) build :=
  fun w => by rw [decode_eq_ok_iff, h, formatXK_eq_iff, mask_class, and_iff_left rfl]

theorem encodes_formatXYN (c : Nibble) (h : ∀ w, encode (build w) = c ++ Word.x w ++ Word.y w ++ Word.n w) :
    Encodes 0xF000#16 (c ++ 0#12) build :=
  fun w => by rw [decode_eq_ok_iff, h, formatXYN_eq_iff, mask_class, and_iff_left rfl]

theorem encodes_formatZ_nibble (c n : Nibble) (h : ∀ w, encode (build w) = c ++ Word.mid w ++ n) :
    Encodes 0xF00F#16 (c ++ 0#8 ++ n) build :=
  fun w => by rw [decode_eq_ok_iff, h, formatZ_eq_iff, mask_class_nibble]

theorem encodes_formatXYN_nibble (c n : Nibble) (h : ∀ w, encode (build w) = c ++ Word.x w ++ Word.y w ++ n) :
    Encodes 0xF00F#16 (c ++ 0#8 ++ n) build :=
  fun w => by rw [decode_eq_ok_iff, h, formatXYN_eq_iff, mask_class_nibble]

theorem encodes_formatXK_byte (c : Nibble) (kk : Byte) (h : ∀ w, encode (build w) = c ++ Word.x w ++ kk) :
    Encodes 0xF0FF#16 (c ++ 0#4 ++ kk) build :=
  fun w => by rw [decode_eq_ok_iff, h, formatXK_eq_iff, mask_class_byte]

end Rows

/-- Each row is one instruction: its words, and no others, decode to the instruction of its mnemonic, the operands being
fields of the word. -/
theorem opcodeMap_encodes : ∀ row ∈ opcodeMap,
    ∃ build : Word → Instr, Encodes row.mask row.mtch build ∧ ∀ w, (build w).mnemonic = row.mnemonic := by
  simp only [opcodeMap, opcodeMapLow, opcodeMapHigh, List.cons_append, List.nil_append, List.forall_mem_cons]
  exact ⟨⟨fun w => .cls (Word.mid w), encodes_formatZ_nibble 0x0 0x0 fun _ => rfl, fun _ => rfl⟩,
    ⟨fun w => .ret (Word.mid w), encodes_formatZ_nibble 0x0 0xE fun _ => rfl, fun _ => rfl⟩,
    ⟨fun w => .jp (Word.nnn w), encodes_formatA 0x1 fun _ => rfl, fun _ => rfl⟩,
    ⟨fun w => .call (Word.nnn w), encodes_formatA 0x2 fun _ => rfl, fun _ => rfl⟩,
    ⟨fun w => .seKk (Word.x w) (Word.kk w), encodes_formatXK 0x3 fun _ => rfl, fun _ => rfl⟩,
    ⟨fun w => .sneKk (Word.x w) (Word.kk w), encodes_formatXK 0x4 fun _ => rfl, fun _ => rfl⟩,
    ⟨fun w => .seVy (Word.x w) (Word.y w) (Word.n w), encodes_formatXYN 0x5 fun _ => rfl, fun _ => rfl⟩,
    ⟨fun w => .ldKk (Word.x w) (Word.kk w), encodes_formatXK 0x6 fun _ => rfl, fun _ => rfl⟩,
    ⟨fun w => .addKk (Word.x w) (Word.kk w), encodes_formatXK 0x7 fun _ => rfl, fun _ => rfl⟩,
    ⟨fun w => .ldVy (Word.x w) (Word.y w), encodes_formatXYN_nibble 0x8 0x0 fun _ => rfl, fun _ => rfl⟩,
    ⟨fun w => .orVy (Word.x w) (Word.y w), encodes_formatXYN_nibble 0x8 0x1 fun _ => rfl, fun _ => rfl⟩,
    ⟨fun w => .andVy (Word.x w) (Word.y w), encodes_formatXYN_nibble 0x8 0x2 fun _ => rfl, fun _ => rfl⟩,
    ⟨fun w => .xorVy (Word.x w) (Word.y w), encodes_formatXYN_nibble 0x8 0x3 fun _ => rfl, fun _ => rfl⟩,
    ⟨fun w => .addVy (Word.x w) (Word.y w), encodes_formatXYN_nibble 0x8 0x4 fun _ => rfl, fun _ => rfl⟩,
    ⟨fun w => .subVy (Word.x w) (Word.y w), encodes_formatXYN_nibble 0x8 0x5 fun _ => rfl, fun _ => rfl⟩,
    ⟨fun w => .shr (Word.x w) (Word.y w), encodes_formatXYN_nibble 0x8 0x6 fun _ => rfl, fun _ => rfl⟩,
    ⟨fun w => .subnVy (Word.x w) (Word.y w), encodes_formatXYN_nibble 0x8 0x7 fun _ => rfl, fun _ => rfl⟩,
    ⟨fun w => .shl (Word.x w) (Word.y w), encodes_formatXYN_nibble 0x8 0xE fun _ => rfl, fun _ => rfl⟩,
    ⟨fun w => .sneVy (Word.x w) (Word.y w) (Word.n w), encodes_formatXYN 0x9 fun _ => rfl, fun _ => rfl⟩,
    ⟨fun w => .ldI (Word.nnn w), encodes_formatA 0xA fun _ => rfl, fun _ => rfl⟩,
    ⟨fun w => .jpV0 (Word.nnn w), encodes_formatA 0xB fun _ => rfl, fun _ => rfl⟩,
    ⟨fun w => .rnd (Word.x w) (Word.kk w), encodes_formatXK 0xC fun _ => rfl, fun _ => rfl⟩,
    ⟨fun w => .drw (Word.x w) (Word.y w) (Word.n w), encodes_formatXYN 0xD fun _ => rfl, fun _ => rfl⟩,
    ⟨fun w => .skp (Word.x w) (Word.y w), encodes_formatXYN_nibble 0xE 0xE fun _ => rfl, fun _ => rfl⟩,
    ⟨fun w => .sknp (Word.x w) (Word.y w), encodes_formatXYN_nibble 0xE 0x1 fun _ => rfl, fun _ => rfl⟩,
    ⟨fun w => .ldVxDt (Word.x w), encodes_formatXK_byte 0xF 0x07 fun _ => rfl, fun _ => rfl⟩,
    ⟨fun w => .ldVxK (Word.x w), encodes_formatXK_byte 0xF 0x0A fun _ => rfl, fun _ => rfl⟩,
    ⟨fun w => .ldDtVx (Word.x w), encodes_formatXK_byte 0xF 0x15 fun _ => rfl, fun _ => rfl⟩,
    ⟨fun w => .ldStVx (Word.x w), encodes_formatXK_byte 0xF 0x18 fun _ => rfl, fun _ => rfl⟩,
    ⟨fun w => .addI (Word.x w), encodes_formatXK_byte 0xF 0x1E fun _ => rfl, fun _ => rfl⟩,
    ⟨fun w => .ldF (Word.x w), encodes_formatXK_byte 0xF 0x29 fun _ => rfl, fun _ => rfl⟩,
    ⟨fun w => .ldB (Word.x w), encodes_formatXK_byte 0xF 0x33 fun _ => rfl, fun _ => rfl⟩,
    ⟨fun w => .stRegs (Word.x w), encodes_formatXK_byte 0xF 0x55 fun _ => rfl, fun _ => rfl⟩,
    ⟨fun w => .ldRegs (Word.x w), encodes_formatXK_byte 0xF 0x65 fun _ => rfl, fun _ => rfl⟩,
    List.forall_mem_nil _⟩

namespace Laws.EncodeRow

theorem statement (i : Instr) : Statement i := by
  cases i
  exacts [cls _, ret _, jp _, call _, seKk _ _, sneKk _ _, seVy _ _ _, ldKk _ _, addKk _ _, ldVy _ _, orVy _ _,
    andVy _ _, xorVy _ _, addVy _ _, subVy _ _, shr _ _, subnVy _ _, shl _ _, sneVy _ _ _, ldI _, jpV0 _, rnd _ _,
    drw _ _ _, skp _ _, sknp _ _, ldVxDt _, ldVxK _, ldDtVx _, ldStVx _, addI _, ldF _, ldB _, stRegs _, ldRegs _]

end Laws.EncodeRow

/-- A row is known by its mnemonic. -/
theorem row_eq_of_mnemonic_eq : ∀ row ∈ opcodeMap, ∀ row' ∈ opcodeMap, row.mnemonic = row'.mnemonic → row = row' := by
  decide

theorem decode_of_selects {row : OpcodeRow} (hrow : row ∈ opcodeMap) (hsel : row.selects w = true) :
    ∃ i, decode w = .ok i ∧ i.mnemonic = row.mnemonic := by
  obtain ⟨build, hbuild, hname⟩ := opcodeMap_encodes row hrow
  exact ⟨build w, (hbuild w).2 (eq_of_beq hsel), hname w⟩

theorem selects_of_decode {row : OpcodeRow} (hrow : row ∈ opcodeMap) (hi : decode w = .ok i)
    (hname : row.mnemonic = i.mnemonic) : row.selects w = true := by
  obtain ⟨own, hown, hownName, hsel⟩ := Laws.EncodeRow.statement i
  rw [row_eq_of_mnemonic_eq row hrow own hown (hname.trans hownName.symm), ← encode_of_decode hi]
  exact hsel

/-- Settles O4: a word that a row selects decodes to the row's instruction, and only that row bears its mnemonic. -/
theorem decodeFollowsTheOpcodeMap : Obligations.DecodeFollowsTheOpcodeMap := by
  refine ⟨fun w i hi row hrow => ⟨fun hsel => ?_, selects_of_decode hrow hi⟩, fun w e he row hrow => ?_⟩
  · obtain ⟨j, hj, hname⟩ := decode_of_selects hrow hsel
    obtain rfl : j = i := Except.ok.inj (hj.symm.trans hi)
    exact hname.symm
  · refine Bool.eq_false_iff.2 fun hsel => ?_
    obtain ⟨j, hj, -⟩ := decode_of_selects hrow hsel
    cases he.symm.trans hj

/-! ### Words that differ in unread bits alone (R77) -/

theorem runWord_encode (i : Instr) (s : State) : runWord (encode i) s = exec i s := runWord_decoded (decode_encode i)

theorem runWord_encode_congr {i j : Instr} {s : State} (h : exec i s = exec j s) :
    runWord (encode i) s = runWord (encode j) s := by rw [runWord_encode, runWord_encode, h]

/-- Settles O6: each pair of words encodes two instructions that differ in `ign` alone, which no handler is given. -/
theorem aliasesRunAsTheCanonicalWord : Obligations.AliasesRunAsTheCanonicalWord := fun _ ab x y b =>
  ⟨runWord_encode_congr (i := .cls ab) (j := .cls 0x0E) rfl, runWord_encode_congr (i := .ret ab) (j := .ret 0x0E) rfl,
    runWord_encode_congr (i := .seVy x y b) (j := .seVy x y 0x0) rfl,
    runWord_encode_congr (i := .sneVy x y b) (j := .sneVy x y 0x0) rfl,
    runWord_encode_congr (i := .skp x b) (j := .skp x 0x9) rfl, runWord_encode_congr (i := .sknp x b) (j := .sknp x 0xA) rfl⟩

end Sys2Proof

/-! The family of spec/40_step_cycle.md: the stages of a Step around its handler (R90 to R98), the no-op (R95), the timers
(R96), and that an error keeps nothing and a latched one stops the machine (R91, R97). -/

namespace Sys2Proof.Machine

variable {s t : State} {i : Instr} {e : DefinedError}

/-! ### A Step that fetches (R92 to R95) -/

theorem step_of_canFetch (hs : CanFetch s) : step s = closeStep s (runWord (nextWord s) s.advance) :=
  (step_running hs.running).trans (cycle_inside hs.inside)

theorem step_decoded (hs : CanFetch s) (hd : decode (nextWord s) = .ok i) : step s = closeStep s (exec i s.advance) := by
  rw [step_of_canFetch hs, runWord_decoded hd]

theorem step_rejected {r : Reject} (hs : CanFetch s) (hd : decode (nextWord s) = .error r) :
    step s = .next { s.advance.tick with loadOpen := false } := by
  rw [step_of_canFetch hs, runWord_rejected hd, closeStep_ok (t := s.advance) hs.running]

/-- Settles O7: the handler's outcome is closed, with the tick or with the error. -/
theorem stepRunsTheDecodedInstruction : Obligations.StepRunsTheDecodedInstruction := by
  intro s i hs hd
  have hstep : step s = closeStep s (exec i s.advance) := step_decoded hs hd
  refine ⟨hstep, fun t ht hn => ?_, fun t e ht he => ?_⟩
  · exact hstep.trans ((congrArg (closeStep s) ht).trans (closeStep_ok hn))
  · exact hstep.trans ((congrArg (closeStep s) ht).trans (closeStep_raised he))

/-- Every instruction has its row in the opcode map. -/
theorem exists_row_of_decode {w : Word} (hd : decode w = .ok i) : ∃ row ∈ opcodeMap, row.selects w = true := by
  obtain ⟨row, hrow, hname, -⟩ := Laws.EncodeRow.statement i
  exact ⟨row, hrow, selects_of_decode hrow hd hname⟩

/-- Settles O8: a word that no row selects decodes to nothing, and its handler does nothing. -/
theorem unrecognisedWordIsANoOp : Obligations.UnrecognisedWordIsANoOp := by
  refine ⟨fun s hs hrows => ?_, by decide⟩
  cases hd : decode (nextWord s) with
  | ok i =>
    obtain ⟨row, hrow, hsel⟩ := exists_row_of_decode hd
    simp [hrows row hrow] at hsel
  | error r => exact step_rejected hs hd

/-! ### Errors (R91, R97) -/

theorem hostLoad_latched {bytes : List Byte} (h : s.err = some e) : hostLoad bytes s = .fault (.latched e) := by
  simp [hostLoad, h]

/-- Settles O9: all three look at the latch first. -/
theorem latchedErrorRefusesStepAndLoad : Obligations.LatchedErrorRefusesStepAndLoad :=
  fun _ _ _ h => ⟨step_latched h, step_latched h, hostLoad_latched h⟩

/-- On a clear latch, a handler that leaves an error raised it on the state it was given. -/
theorem exec_raised (h0 : s.err = none) (h : exec i s = .next t) (he : t.err = some e) :
    effect i s = .error e ∧ t = s.raise e := by
  obtain ⟨-, hn⟩ | ⟨e', hx, rfl⟩ := exec_cases_of_running h0 h
  · simp [hn] at he
  · obtain rfl : e' = e := Option.some.inj he
    exact ⟨hx, rfl⟩

/-- A Step that leaves an error raised it in the fetch or in the handler of the decoded instruction. -/
theorem step_raised (h : step s = .next t) (he : t.err = some e) :
    t = s.raise e ∧ ((0xFFE < s.pc.toNat ∧ e = .fetchOutOfBounds s.pc) ∨
      (s.pc.toNat ≤ 0xFFE ∧ ∃ i, decode (nextWord s) = .ok i ∧ effect i s.advance = .error e)) := by
  obtain ⟨h0, ⟨hp, rfl⟩ | ⟨hp, u, hu, ⟨hn, rfl⟩ | ⟨e', hu', rfl⟩⟩⟩ := step_cases h
  · obtain rfl := Option.some.inj he
    exact ⟨rfl, .inl ⟨hp, rfl⟩⟩
  · cases hn.symm.trans he
  · obtain rfl : e' = e := Option.some.inj he
    refine ⟨rfl, .inr ⟨hp, ?_⟩⟩
    cases hd : decode (nextWord s) with
    | ok i => exact ⟨i, rfl, (exec_raised (s := s.advance) h0 ((runWord_decoded hd).symm.trans hu) hu').1⟩
    | error r =>
      obtain rfl : s.advance = u := by simpa using (runWord_rejected hd).symm.trans hu
      cases h0.symm.trans hu'

/-- Settles O13: both raise on the state they were given. -/
theorem faultingStepKeepsNothing : Obligations.FaultingStepKeepsNothing :=
  ⟨fun _ _ _ _ h0 h he => (exec_raised h0 h he).2, fun _ _ _ _ h he => (step_raised h he).1⟩

/-! ### What a handler can raise (spec/60_exceptions.md R172 to R175) -/

theorem pushPc_error (h : pushPc s = .error e) : s.sp.val = 16 ∧ e = .stackOverflow := by
  by_cases hs : s.sp.val < 16
  · rw [pushPc_of_lt hs] at h; cases h
  · have hfull : s.sp.val = 16 := by omega
    rw [pushPc_of_full hfull] at h; cases h; exact ⟨hfull, rfl⟩

theorem popPc_error (h : popPc s = .error e) : s.sp.val = 0 ∧ e = .stackUnderflow := by
  by_cases hs : 0 < s.sp.val
  · rw [popPc_of_pos hs] at h; cases h
  · have hempty : s.sp.val = 0 := by omega
    rw [popPc_of_empty hempty] at h; cases h; exact ⟨hempty, rfl⟩

/-- An access of `n` bytes at `I` that leaves memory, and the error that reports it (R172). -/
def AccessRaises (s : State) (n : Nat) (e : DefinedError) : Prop :=
  ¬ AccessFits s n ∧ e = .memoryOutOfBounds (max s.i.toNat 0x1000)

/-- When an instruction raises, and what. -/
def HandlerRaises (i : Instr) (s : State) (e : DefinedError) : Prop :=
  match i with
  | .call _ => s.sp.val = 16 ∧ e = .stackOverflow
  | .ret _ => s.sp.val = 0 ∧ e = .stackUnderflow
  | .skp x _ | .sknp x _ => 15 < (s.reg x).toNat ∧ e = .keyIndexOutOfRange (s.reg x)
  | .drw _ _ n => AccessRaises s n.toNat e
  | .ldB _ => AccessRaises s 3 e
  | .stRegs x | .ldRegs x => AccessRaises s (x.toNat + 1) e
  | _ => False

theorem readBlock_raises {n : Nat} (h : readBlock s (dataBase s) n = .error e) : AccessRaises s n e := by
  obtain ⟨⟨hn, hlong⟩, he⟩ := readBlock_error h
  exact ⟨not_or.2 ⟨hn.ne', Nat.not_le.2 hlong⟩, he⟩

theorem writeBlock_raises {bs : List Byte} (h : writeBlock s (dataBase s) bs = .error e) : AccessRaises s bs.length e := by
  obtain ⟨⟨hn, hlong⟩, he⟩ := writeBlock_error h
  exact ⟨not_or.2 ⟨mt List.length_eq_zero_iff.1 hn, Nat.not_le.2 hlong⟩, he⟩

theorem effect_error (h : effect i s = .error e) : HandlerRaises i s e := by
  cases i <;> simp only [effect] at h
  case ret => exact popPc_error h
  case call => exact pushPc_error (map_error h)
  case skp | sknp => exact keyIndex_error (map_error h)
  case drw | ldRegs => exact readBlock_raises (map_error h)
  case ldB => exact writeBlock_raises h
  case stRegs => simpa [HandlerRaises] using writeBlock_raises h
  case ldVxK => split at h <;> cases h
  all_goals cases h

/-- The fetch error is none of those a handler raises. -/
theorem effect_ne_fetchOutOfBounds (a : Word) : effect i s ≠ .error (.fetchOutOfBounds a) := by
  intro h
  have hr := effect_error h
  cases i <;> simp [HandlerRaises, AccessRaises] at hr

/-- Settles O10: beyond the bound it is the fetch that raises, within it only a handler can. -/
theorem fetchBoundIsBothBytes : Obligations.FetchBoundIsBothBytes := by
  refine fun s h0 => ⟨fun hp => (step_running h0).trans (cycle_outside hp), fun hp t a ht he => ?_⟩
  obtain ⟨-, ⟨hp', -⟩ | ⟨-, i, -, hx⟩⟩ := step_raised ht he
  · omega
  · exact effect_ne_fetchOutOfBounds a hx

/-! ### Every Step answers (R90, R99) -/

theorem runWord_next (w : Word) (s : State) : ∃ t, runWord w s = .next t := by
  cases hd : decode w with
  | ok i => rw [runWord_decoded hd]; exact exec_next i s
  | error r => exact ⟨s, runWord_rejected hd⟩

theorem closeStep_next (entry t : State) : ∃ t', closeStep entry (.next t) = .next t' := by
  cases he : t.err with
  | none => exact ⟨_, closeStep_ok he⟩
  | some e => exact ⟨_, closeStep_raised he⟩

/-- Settles O14: the fetch raises, or the handler answers a state that the end of the Step passes on. -/
theorem everyStepAnswers : Obligations.EveryStepAnswers := by
  refine ⟨exec_next, fun s h0 => ?_⟩
  by_cases hp : s.pc.toNat ≤ 0xFFE
  · obtain ⟨t, ht⟩ := runWord_next (nextWord s) s.advance
    rw [step_of_canFetch ⟨h0, hp⟩, ht]
    exact closeStep_next s t
  · exact ⟨_, (step_running h0).trans (cycle_outside (Nat.not_le.1 hp))⟩

/-! ### The timers (R96, R164, R165) -/

theorem tickDown_toNat (b : Byte) : (tickDown b).toNat = b.toNat - 1 := by
  unfold tickDown
  split
  · next hb => rw [hb]; rfl
  · bv_omega

/-- Settles O12: the tick acts on what the handler left, and the frame of an effect says that only Fx15 and Fx18 write a
timer. -/
theorem timersTickInEveryCompletedStep : Obligations.TimersTickInEveryCompletedStep := by
  refine ⟨tickDown_toNat, fun s t hs h ht => ?_⟩
  obtain ⟨-, -, u, hu, hn, rfl⟩ := step_completed h ht
  obtain ⟨i, hd, hx⟩ | ⟨⟨r, hd⟩, rfl⟩ := runWord_completed (s := s.advance) hs.running hu hn
  · replace hd : decode (nextWord s) = .ok i := hd
    have hkeep := effect_keepsOtherFields hx
    rw [hd]
    refine ⟨congrArg tickDown ?_, congrArg tickDown ?_⟩
    · split
      · next x hi => cases hi; cases hx; rfl
      · next hi => exact hkeep.dt.resolve_right fun ⟨x, hix⟩ => hi x (congrArg _ hix)
    · split
      · next x hi => cases hi; cases hx; rfl
      · next hi => exact hkeep.st.resolve_right fun ⟨x, hix⟩ => hi x (congrArg _ hix)
  · replace hd : decode (nextWord s) = .error r := hd
    rw [hd]
    exact ⟨rfl, rfl⟩

end Sys2Proof.Machine

/-! The family of spec/41_control_flow.md: clearing the screen (R100), jumps (R102, R104), and the call stack that CALL and
RET share (R101, R103). -/

namespace Sys2Proof.Machine

variable {s t : State}

/-! ### Handlers by their effect -/

theorem exec_of_effect_ok {i : Instr} (h : effect i s = .ok t) : exec i s = .next t := by
  rw [exec_eq_commit, h, commit_ok]

theorem exec_of_effect_error {i : Instr} {e : DefinedError} (h : effect i s = .error e) :
    exec i s = .next (s.raise e) := by
  rw [exec_eq_commit, h, commit_error]

/-! ### CLS and the jumps (R100, R102, R104) -/

/-- Settles O29: the effect of CLS is the blank framebuffer, with every pixel off. -/
theorem clsTurnsEveryPixelOff : Obligations.ClsTurnsEveryPixelOff :=
  ⟨encodes_formatZ_nibble 0x0 0x0 fun _ => rfl, fun _ s => ⟨s.setFrame Frame.blank, rfl, rfl, Frame.pixel_blank⟩⟩

/-- Settles O31: the address immediate is zero-extended, so `pc` is `nnn` as a number. -/
theorem jpSetsPc : Obligations.JpSetsPc :=
  ⟨encodes_formatA 0x1 fun _ => rfl, fun nnn s => ⟨s.setPc (addrImm nnn), rfl, rfl, addrImm_toNat nnn⟩⟩

/-- Settles O34: the sum of a 12-bit and an 8-bit number does not wrap in 16 bits. -/
theorem jpV0AddsRegisterZero : Obligations.JpV0AddsRegisterZero :=
  ⟨encodes_formatA 0xB fun _ => rfl, fun nnn s => ⟨s.setPc (offsetTarget s nnn), rfl, rfl, offsetTarget_toNat s nnn⟩⟩

/-! ### The call stack (R101, R103) -/

theorem exec_ret_of_pos (ign : Byte) (h : 0 < s.sp.val) : exec (.ret ign) s =
    .next { s with sp := ⟨s.sp.val - 1, by omega⟩, pc := s.stack[s.sp.val - 1]'(by omega) } :=
  exec_of_effect_ok (popPc_of_pos h)

theorem exec_call_of_lt (nnn : Addr) (h : s.sp.val < 16) : exec (.call nnn) s =
    .next { s with stack := s.stack.set s.sp.val s.pc h, sp := ⟨s.sp.val + 1, by omega⟩, pc := addrImm nnn } :=
  exec_of_effect_ok (congrArg (Except.map (State.setPc · (addrImm nnn))) (pushPc_of_lt h))

/-- Settles O30: an empty stack has nothing to pop; else the entry below `sp` is popped. -/
theorem retPopsTheSavedPc : Obligations.RetPopsTheSavedPc := by
  refine ⟨encodes_formatZ_nibble 0x0 0xE fun _ => rfl, fun ign s => ⟨fun hempty => ?_, fun hpos => ?_⟩⟩
  · exact exec_of_effect_error (popPc_of_empty hempty)
  · exact ⟨_, exec_ret_of_pos ign hpos, rfl, rfl, rfl⟩

/-- Settles O32: a full stack has no room to push; else the entry at `sp` alone is written. -/
theorem callPushesThePostFetchPc : Obligations.CallPushesThePostFetchPc := by
  refine ⟨encodes_formatA 0x2 fun _ => rfl, fun nnn s => ⟨fun hfull => ?_, fun hlt => ?_⟩⟩
  · exact exec_of_effect_error (congrArg (Except.map (State.setPc · (addrImm nnn))) (pushPc_of_full hfull))
  · refine ⟨_, exec_call_of_lt nnn hlt, rfl, addrImm_toNat nnn, rfl, fun k hk => ?_⟩
    simp only [Vector.getElem_set, eq_comm (a := k)]

/-- Settles O33: the return pops the entry the call pushed, at the `sp` the call found; the call wrote no entry below. -/
theorem returnComesBackAfterTheCall : Obligations.ReturnComesBackAfterTheCall := by
  intro nnn ign s t a hlt hcall
  rw [exec_call_of_lt nnn hlt] at hcall
  cases hcall
  refine ⟨_, exec_ret_of_pos ign (Nat.succ_pos _), ?_, rfl, fun k _ hk => ?_⟩
  · exact Vector.getElem_set_self hlt
  · exact Vector.getElem_set_ne hlt _ hk.ne'

end Sys2Proof.Machine

/-! The family of spec/42_skip.md: the comparison skips (R110 to R113) and the skip that all six skip instructions share
(R114). -/

namespace Sys2Proof.Machine

variable {s : State} {i : Instr} {c : Bool}

/-! ### The skip of all six (R114) -/

/-- On the state it is given, a skip whose condition is known skips by it and raises nothing; of the key skips this asks for a
key number. -/
theorem effect_of_skipTaken (h : skipTaken s i = some c) : effect i s = .ok (s.skipIf c) := by
  cases i <;> simp only [skipTaken] at h
  case seKk | sneKk | seVy | sneVy => cases h; rfl
  case skp | sknp =>
    split at h
    · next hx => cases h; exact congrArg (Except.map _) (keyIndex_inside hx)
    · cases h
  all_goals cases h

/-- The skip beyond the advance, as one change of `pc`. -/
theorem skipIf_advance_pc (s : State) (c : Bool) : (s.advance.skipIf c).pc = s.pc + (if c then 4 else 2) := by
  cases c
  · rfl
  · exact BitVec.add_assoc s.pc 2 2

theorem step_of_skipTaken (hs : CanFetch s) (hd : decode (nextWord s) = .ok i) (hc : skipTaken s i = some c) :
    step s = .next { s with
      pc := s.pc + (if c then 4 else 2), dt := tickDown s.dt, st := tickDown s.st, loadOpen := false } := by
  have hexec : exec i s.advance = .next (s.advance.skipIf c) :=
    exec_of_effect_ok (effect_of_skipTaken ((skipTaken_advance s i).trans hc))
  have hclear : (s.advance.skipIf c).err = none := (State.skipIf_err s.advance c).trans hs.running
  rw [step_decoded hs hd, hexec, closeStep_ok hclear, ← skipIf_advance_pc]
  cases c <;> rfl

/-- Settles O38: the handler of each of the six is the skip by its condition; 4 beyond 0xFFC or more there is no word to
fetch. -/
theorem skipAdvancesByFourOrTwo : Obligations.SkipAdvancesByFourOrTwo := by
  intro s i c hs hd hc
  have hstep := step_of_skipTaken hs hd hc
  refine ⟨hstep, fun htaken hedge t ht => ?_⟩
  subst htaken
  cases hstep.symm.trans ht
  have hin := hs.inside
  have hpc : (s.pc + 4).toNat = s.pc.toNat + 4 := by bv_omega
  have hout : 0xFFE < (s.pc + 4).toNat := by omega
  refine ⟨hpc, (fetchBoundIsBothBytes _ ?_).1 hout⟩
  exact hs.running

/-! ### The comparisons (R110 to R113) -/

/-- The skip by a condition that decides `p`. -/
theorem State.skipIf_of_iff (s : State) {p : Prop} [Decidable p] (h : c = true ↔ p) :
    s.skipIf c = { s with pc := if p then s.pc + 2 else s.pc } := by
  by_cases hp : p
  · rw [h.2 hp, if_pos hp]; rfl
  · rw [Bool.eq_false_iff.2 (mt h.1 hp), if_neg hp]; rfl

theorem State.skipIf_beq (s : State) (a b : Byte) :
    s.skipIf (a == b) = { s with pc := if a.toNat = b.toNat then s.pc + 2 else s.pc } :=
  s.skipIf_of_iff (beq_iff_eq.trans BitVec.toNat_inj.symm)

theorem State.skipIf_bne (s : State) (a b : Byte) :
    s.skipIf (a != b) = { s with pc := if a.toNat ≠ b.toNat then s.pc + 2 else s.pc } :=
  s.skipIf_of_iff (bne_iff_ne.trans BitVec.toNat_inj.symm.not)

/-- Settles O36: each handler is the skip by its comparison, and two bytes are equal when they are as numbers. -/
theorem comparisonSkipsCompare : Obligations.ComparisonSkipsCompare :=
  ⟨⟨encodes_formatXK 0x3 fun _ => rfl, encodes_formatXK 0x4 fun _ => rfl, encodes_formatXYN 0x5 fun _ => rfl,
      encodes_formatXYN 0x9 fun _ => rfl⟩,
    fun x kk s => ⟨congrArg _ (s.skipIf_beq (s.reg x) kk), congrArg _ (s.skipIf_bne (s.reg x) kk)⟩,
    fun x y _ s => ⟨congrArg _ (s.skipIf_beq (s.reg x) (s.reg y)), congrArg _ (s.skipIf_bne (s.reg x) (s.reg y))⟩⟩

end Sys2Proof.Machine

/-! The family of spec/43_arith_logic.md: the results and flags as numbers (R122, R127 to R132), and what the writes of a result
leave in the registers (R120). -/

namespace Sys2Proof.Machine

variable {s : State} {x r : Reg} {b : Byte} {c : Bool}

/-! ### Results and flags (R122, R127 to R132) -/

theorem addNoFlag_toNat (a b : Byte) : (addNoFlag a b).toNat = (a.toNat + b.toNat) % 256 :=
  (BitVec.toNat_ofNat _ 8).trans (Nat.mod_mod _ 256)

theorem addCarry_result (a b : Byte) : (addCarry a b).1.toNat = (a.toNat + b.toNat) % 256 := addNoFlag_toNat a b

theorem addCarry_flag (a b : Byte) : (addCarry a b).2 = true ↔ a.toNat + b.toNat > 255 := decide_eq_true_iff

/-- The 256 that keeps the model's difference natural is lost modulo 256. -/
theorem subNoBorrow_result (a b : Byte) : ((subNoBorrow a b).1.toNat : Int) = (a.toNat - b.toNat : Int) % 256 := by
  have hnat : (subNoBorrow a b).1.toNat = (a.toNat + 256 - b.toNat) % 256 :=
    (BitVec.toNat_ofNat _ 8).trans (Nat.mod_mod _ 256)
  have hb : b.toNat < 256 := b.isLt
  omega

theorem subNoBorrow_flag (a b : Byte) : (subNoBorrow a b).2 = true ↔ a.toNat ≥ b.toNat := decide_eq_true_iff

theorem shiftRight_result (a : Byte) : (shiftRight a).1.toNat = a.toNat / 2 :=
  (BitVec.toNat_ofNat _ 8).trans (Nat.mod_eq_of_lt (by have := a.isLt; omega))

theorem shiftRight_flag (a : Byte) : (shiftRight a).2.toNat = a.toNat % 2 :=
  (Nat.toNat_testBit a.toNat 0).trans (by rw [pow_zero, Nat.div_one])

theorem shiftLeft_result (a : Byte) : (shiftLeft a).1.toNat = a.toNat * 2 % 256 :=
  (BitVec.toNat_ofNat _ 8).trans (Nat.mod_mod _ 256)

/-- Bit 7 is the last of a byte, so nothing stands above it. -/
theorem shiftLeft_flag (a : Byte) : (shiftLeft a).2.toNat = a.toNat / 128 :=
  (Nat.toNat_testBit a.toNat 7).trans (Nat.mod_eq_of_lt (by have := a.isLt; omega))

/-! ### Registers after a result and its flag (R120) -/

/-- The flag is written last, so `VF` holds it whatever `x` is; here a flag that decides `p`. -/
theorem State.reg_setResult_flag (x : Reg) (b : Byte) {p : Prop} [Decidable p] (h : c = true ↔ p) :
    (s.setResult x b c).reg 0xF = if p then 1 else 0 := by
  rw [State.reg_setResult, if_pos rfl]
  exact if_congr h rfl rfl

theorem State.reg_setResult_flag_toNat (x : Reg) (b : Byte) (c : Bool) :
    ((s.setResult x b c).reg 0xF).toNat = c.toNat := by
  rw [State.reg_setResult, if_pos rfl]
  cases c <;> rfl

theorem State.reg_setResult_self (hx : x ≠ 0xF) : (s.setResult x b c).reg x = b := by
  rw [State.reg_setResult, if_neg hx, if_pos rfl]

theorem State.reg_setResult_other (hr : r ≠ x) (hf : r ≠ 0xF) : (s.setResult x b c).reg r = s.reg r := by
  rw [State.reg_setResult, if_neg hf, if_neg hr]

/-! ### The instructions without a flag (R121 to R126) -/

/-- Settles O40: one register write, of the byte. -/
theorem loadImmediateWritesTheByte : Obligations.LoadImmediateWritesTheByte :=
  ⟨encodes_formatXK 0x6 fun _ => rfl, fun x kk s => ⟨s.setReg x kk, rfl, rfl, fun r => State.reg_setReg x r kk⟩⟩

/-- Settles O41: one register write, of the sum, so `VF` keeps its value unless it is the destination. -/
theorem addImmediateWrapsWithoutFlag : Obligations.AddImmediateWrapsWithoutFlag := by
  refine ⟨encodes_formatXK 0x7 fun _ => rfl, fun x kk s =>
    ⟨s.setReg x (addNoFlag (s.reg x) kk), rfl, rfl, ?_, fun _ hr => State.reg_setReg_other hr _⟩⟩
  rw [State.reg_setReg_self, addNoFlag_toNat]

/-- Settles O42: one register write each, of the copy or of the bitwise combination. -/
theorem copyAndBitwiseWorkBitByBit : Obligations.CopyAndBitwiseWorkBitByBit := by
  refine ⟨encodes_formatXYN_nibble 0x8 0x0 fun _ => rfl, encodes_formatXYN_nibble 0x8 0x1 fun _ => rfl,
    encodes_formatXYN_nibble 0x8 0x2 fun _ => rfl, encodes_formatXYN_nibble 0x8 0x3 fun _ => rfl, fun x y s =>
    ⟨⟨s.setReg x (s.reg y), rfl, rfl, State.reg_setReg_self x _, fun _ hr => State.reg_setReg_other hr _⟩,
      ⟨s.setReg x (s.reg x ||| s.reg y), rfl, rfl, fun k => ?_, fun _ hr => State.reg_setReg_other hr _⟩,
      ⟨s.setReg x (s.reg x &&& s.reg y), rfl, rfl, fun k => ?_, fun _ hr => State.reg_setReg_other hr _⟩,
      ⟨s.setReg x (s.reg x ^^^ s.reg y), rfl, rfl, fun k => ?_, fun _ hr => State.reg_setReg_other hr _⟩⟩⟩
  · rw [State.reg_setReg_self, BitVec.getLsbD_or]
  · rw [State.reg_setReg_self, BitVec.getLsbD_and]
  · rw [State.reg_setReg_self, BitVec.getLsbD_xor]

/-! ### The instructions with a flag (R127 to R131) -/

/-- Settles O43: the flag decides whether the sum exceeds a byte. -/
theorem addSetsCarry : Obligations.AddSetsCarry := by
  refine ⟨encodes_formatXYN_nibble 0x8 0x4 fun _ => rfl, fun x y s =>
    ⟨s.setPair x (addCarry (s.reg x) (s.reg y)), rfl, rfl, ?_, fun hx => ?_, fun _ => State.reg_setResult_other⟩⟩
  · exact State.reg_setResult_flag x _ (addCarry_flag _ _)
  · rw [State.setPair_eq, State.reg_setResult_self hx, addCarry_result]

/-- Settles O44: both write one pair, the operands exchanged. -/
theorem subtractionsSetNoBorrow : Obligations.SubtractionsSetNoBorrow := by
  refine ⟨encodes_formatXYN_nibble 0x8 0x5 fun _ => rfl, encodes_formatXYN_nibble 0x8 0x7 fun _ => rfl, fun x y s =>
    ⟨⟨s.setPair x (subNoBorrow (s.reg x) (s.reg y)), rfl, rfl, State.reg_setResult_flag x _ (subNoBorrow_flag _ _),
        fun hx => ?_, fun _ => State.reg_setResult_other⟩,
      ⟨s.setPair x (subNoBorrow (s.reg y) (s.reg x)), rfl, rfl, State.reg_setResult_flag x _ (subNoBorrow_flag _ _),
        fun hx => ?_, fun _ => State.reg_setResult_other⟩⟩⟩
  all_goals rw [State.setPair_eq, State.reg_setResult_self hx, subNoBorrow_result]

/-- Settles O45: the flag is the bit shifted out of `V[x]`; the `y` field is not used. -/
theorem shiftsMoveByOneAndFlagTheBitOut : Obligations.ShiftsMoveByOneAndFlagTheBitOut := by
  refine ⟨encodes_formatXYN_nibble 0x8 0x6 fun _ => rfl, encodes_formatXYN_nibble 0x8 0xE fun _ => rfl, fun x y s =>
    ⟨⟨s.setPair x (shiftRight (s.reg x)), rfl, rfl, ?_, fun hx => ?_, fun _ => State.reg_setResult_other⟩,
      ⟨s.setPair x (shiftLeft (s.reg x)), rfl, rfl, ?_, fun hx => ?_, fun _ => State.reg_setResult_other⟩⟩⟩
  · rw [State.setPair_eq, State.reg_setResult_flag_toNat, shiftRight_flag]
  · rw [State.setPair_eq, State.reg_setResult_self hx, shiftRight_result]
  · rw [State.setPair_eq, State.reg_setResult_flag_toNat, shiftLeft_flag]
  · rw [State.setPair_eq, State.reg_setResult_self hx, shiftLeft_result]

end Sys2Proof.Machine

/-! The family of spec/44_random_index_memory.md: the random byte (R140), the index register (R141 to R143), and the stores and
loads of runs of bytes at `I` (R144 to R146). -/

namespace Sys2Proof.Machine

variable {s : State}

/-! ### The random byte (R140) -/

/-- Settles O46: the draw advances the count, and a masked byte has no bit that the mask lacks. -/
theorem rndMasksAFreshDraw : Obligations.RndMasksAFreshDraw := by
  refine ⟨encodes_formatXK 0xC fun _ => rfl, fun x kk s => ⟨s.draw.2.setReg x (s.draw.1 &&& kk), rfl, rfl, ?_⟩⟩
  rw [State.reg_setReg_self, State.draw_fst]
  refine ⟨rfl, fun k hk => ?_, ?_, fun r hr => State.reg_setReg_other hr _⟩
  · rw [BitVec.getLsbD_and, hk, Bool.and_false]
  · rw [BitVec.toNat_and]
    exact Nat.and_le_right

/-! ### The index register (R141 to R143) -/

theorem indexPlus_toNat (s : State) (x : Reg) : (indexPlus s x).toNat = (s.i.toNat + (s.reg x).toNat) % 65536 :=
  (BitVec.toNat_ofNat _ 16).trans (Nat.mod_mod _ 65536)

/-- The largest byte still gives an address of 16 bits, so the formula does not wrap. -/
theorem glyphAddr_toNat (b : Byte) : (glyphAddr b).toNat = 0x050 + 5 * b.toNat := by
  have hlt : 0x050 + 5 * b.toNat < 2 ^ 16 := by have := b.isLt; omega
  exact (BitVec.toNat_ofNat _ 16).trans (Nat.mod_eq_of_lt hlt)

/-- Byte `j` of the font stands `j` beyond the font's base (R52). -/
theorem resetByte_font {j : Nat} (h : j < 80) : resetByte (0x050 + j) = fontBytes.getD j 0 := by
  have hf : Config.fontBase = 0x050 := rfl
  rw [resetByte, if_pos (by omega), hf, Nat.add_sub_cancel_left]

/-- Settles O47: the address immediate is zero-extended, so `I` is `nnn` as a number. -/
theorem ldISetsTheIndex : Obligations.LdISetsTheIndex :=
  ⟨encodes_formatA 0xA fun _ => rfl, fun nnn s => ⟨s.setI (addrImm nnn), rfl, rfl, addrImm_toNat nnn⟩⟩

/-- Settles O48: `I` alone is written, with the sum narrowed to 16 bits. -/
theorem addIWrapsAtSixteenBits : Obligations.AddIWrapsAtSixteenBits :=
  ⟨encodes_formatXK_byte 0xF 0x1E fun _ => rfl, fun x s => ⟨s.setI (indexPlus s x), rfl, rfl, indexPlus_toNat s x⟩⟩

/-- Settles O49: the glyph of digit `d` is the five bytes of the font from byte `5 * d` on. -/
theorem ldFPointsAtTheGlyph : Obligations.LdFPointsAtTheGlyph := by
  refine ⟨encodes_formatXK_byte 0xF 0x29 fun _ => rfl,
    fun x s => ⟨s.setI (glyphAddr (s.reg x)), rfl, rfl, glyphAddr_toNat _⟩, fun x s t k hm hx hk h => ?_⟩
  cases h
  rw [State.setI_mem, State.setI_i, glyphAddr_toNat, hm, Nat.add_assoc]
  exact resetByte_font (by omega)

/-! ### A run of bytes in memory (R144 to R146) -/

/-- Byte `k` of a run written at `a` stands at `a + k`. -/
theorem Memory.read_writeBytes_inside {m : Memory} (hm : m.wf = true) {a : Nat} {bs : List Byte}
    (h : a + bs.length ≤ 0x1000) {k : Nat} (hk : k < bs.length) : (m.writeBytes a bs).read (a + k) = bs[k] := by
  rw [Memory.read_writeBytes hm h, if_pos (by omega), Nat.add_sub_cancel_left, List.getD_eq_getElem _ _ hk]

/-- Every byte before or after the run is unchanged. -/
theorem Memory.read_writeBytes_outside {m : Memory} (hm : m.wf = true) {a b : Nat} {bs : List Byte}
    (h : a + bs.length ≤ 0x1000) (hb : b < a ∨ a + bs.length ≤ b) : (m.writeBytes a bs).read b = m.read b := by
  rw [Memory.read_writeBytes hm h, if_neg (by omega)]

@[simp] theorem bcdDigits_length (b : Byte) : (bcdDigits b).length = 3 := rfl

/-- Each digit fits a byte, so none is narrowed. -/
theorem bcdDigits_toNat (b : Byte) : (bcdDigits b)[0].toNat = b.toNat / 100 ∧
    (bcdDigits b)[1].toNat = b.toNat / 10 % 10 ∧ (bcdDigits b)[2].toNat = b.toNat % 10 := by
  have hb : b.toNat < 256 := b.isLt
  refine ⟨?_, ?_, ?_⟩
  all_goals exact (BitVec.toNat_ofNat _ 8).trans (Nat.mod_eq_of_lt (by omega))

/-- Settles O50: the digits are a run of three bytes at `I`, written whole or not at all. -/
theorem bcdStoresThreeDigits : Obligations.BcdStoresThreeDigits := by
  refine ⟨encodes_formatXK_byte 0xF 0x33 fun _ => rfl, fun x s => ⟨fun hout => ?_, fun hm hin => ?_⟩⟩
  · exact exec_of_effect_error (writeBlock_outside (List.cons_ne_nil _ _) (Nat.succ_lt_succ hout))
  · have hfit : s.i.toNat + (bcdDigits (s.reg x)).length ≤ 0x1000 := Nat.succ_le_succ hin
    have hread {k : Nat} (hk : k < 3) := congrArg BitVec.toNat (Memory.read_writeBytes_inside hm hfit (k := k) hk)
    obtain ⟨hhundreds, htens, hones⟩ := bcdDigits_toNat (s.reg x)
    exact ⟨_, exec_of_effect_ok (writeBlock_inside (.inr hfit)), rfl, (hread (k := 0) (by decide)).trans hhundreds,
      (hread (k := 1) (by decide)).trans htens, (hread (k := 2) (by decide)).trans hones,
      fun a ha => Memory.read_writeBytes_outside hm hfit ha⟩

/-- Settles O51: the registers are a run of `x + 1` bytes at `I`, written whole or not at all. -/
theorem blockStoreCopiesRegisters : Obligations.BlockStoreCopiesRegisters := by
  refine ⟨encodes_formatXK_byte 0xF 0x55 fun _ => rfl, fun x s => ?_⟩
  have hlen : (s.regs (x.toNat + 1)).length = x.toNat + 1 := State.regs_length _
  refine ⟨fun hout => ?_, fun hm hin => ?_⟩
  · exact exec_of_effect_error
      (writeBlock_outside (List.ne_nil_of_length_pos (by omega)) (by rw [hlen]; exact Nat.succ_lt_succ hout))
  · have hfit : s.i.toNat + (s.regs (x.toNat + 1)).length ≤ 0x1000 := by omega
    refine ⟨_, exec_of_effect_ok (writeBlock_inside (.inr hfit)), rfl, fun k hk => ?_, fun a ha => ?_⟩
    · have hk' : k.toNat < (s.regs (x.toNat + 1)).length := by omega
      refine (Memory.read_writeBytes_inside hm hfit hk').trans ?_
      rw [State.regs_getElem, BitVec.ofNat_toNat, BitVec.setWidth_eq]
    · exact Memory.read_writeBytes_outside hm hfit (by rw [hlen]; exact ha)

/-- Writing a run of registers changes registers alone. -/
theorem State.setRegs_eq (k : Nat) (bs : List Byte) : s.setRegs k bs = { s with v := (s.setRegs k bs).v } := by
  induction bs generalizing s k with
  | nil => rfl
  | cons b bs ih => exact ih (s := s.setReg (BitVec.ofNat 4 k) b) (k + 1)

/-- Settles O52: the `x + 1` bytes at `I` are read, all or none, and written to the registers from `V[0]` on. -/
theorem blockLoadCopiesMemory : Obligations.BlockLoadCopiesMemory := by
  refine ⟨encodes_formatXK_byte 0xF 0x65 fun _ => rfl, fun x s => ⟨fun hout => ?_, fun hin => ?_⟩⟩
  · exact exec_of_effect_error (congrArg (Except.map _) (readBlock_outside (Nat.succ_pos _) (Nat.succ_lt_succ hout)))
  · have hread : readBlock s (dataBase s) (x.toNat + 1) = .ok _ := readBlock_inside (.inr (Nat.succ_le_succ hin))
    have hx := x.isLt
    refine ⟨_, exec_of_effect_ok (congrArg (Except.map _) hread), State.setRegs_eq 0 _, fun r => ?_⟩
    rw [State.reg_setRegs _ _ (by simp; omega), List.length_map, List.length_range]
    by_cases hr : r.toNat ≤ x.toNat
    · rw [if_pos (by omega), if_pos hr, List.getD_eq_getElem _ _ (by simp; omega)]
      simp [dataBase]
    · rw [if_neg (by omega), if_neg hr]

/-- Settles O53: the store left `V[k]` at `I + k`, where the load finds it. -/
theorem blockLoadUndoesBlockStore : Obligations.BlockLoadUndoesBlockStore := by
  intro x s t u hm hin hstore hmem hi
  obtain ⟨t', ht', hframe, hread, -⟩ := (blockStoreCopiesRegisters.2 x s).2 hm hin
  obtain rfl : t' = t := by simpa using ht'.symm.trans hstore
  have hbase : u.i = s.i := by rw [hi, hframe]
  obtain ⟨z, hz, -, hregs⟩ := (blockLoadCopiesMemory.2 x u).2 (hbase ▸ hin)
  refine ⟨z, hz, fun r hr => ?_⟩
  rw [hregs, if_pos hr, hmem, hbase, hread r hr]

end Sys2Proof.Machine

/-! The family of spec/45_sprite.md: what a draw does to the screen and to `VF` (R150 to R152), and what the same draw
does a second time (R153). -/

namespace Sys2Proof.Machine

variable {s t : State} {x y : Reg} {n : Nibble} {px : Fin 64} {py : Fin 32}

/-! ### One draw (R150 to R152) -/

/-- The framebuffer and the collision flag of a draw whose `n` rows lie in memory. -/
def State.canvasAfterDraw (s : State) (x y : Reg) (n : Nibble) : Canvas :=
  drawSprite (s.reg x) (s.reg y) ((List.range n.toNat).map fun k => s.mem.read (s.i.toNat + k)) s.frame

theorem exec_drw_of_fits (x y : Reg) (h : n.toNat = 0 ∨ s.i.toNat + n.toNat ≤ 0x1000) :
    exec (.drw x y n) s = .next (s.setCanvas (s.canvasAfterDraw x y n)) :=
  exec_of_effect_ok (congrArg (Except.map _) (readBlock_inside h))

/-- A sprite has at most 15 rows, so its rows are different pixel rows, and each covered pixel is inverted once. -/
theorem canvasAfterDraw_spec (s : State) (x y : Reg) (n : Nibble) :
    (∀ px py, SpriteCovers s x y n.toNat px py →
      Frame.pixel (s.canvasAfterDraw x y n).1 px py = !s.frame.pixel px py) ∧
    (∀ px py, ¬ SpriteCovers s x y n.toNat px py →
      Frame.pixel (s.canvasAfterDraw x y n).1 px py = s.frame.pixel px py) ∧
    ((s.canvasAfterDraw x y n).2 = true ↔
      ∃ px py, SpriteCovers s x y n.toNat px py ∧ s.frame.pixel px py = true) := by
  have hrows : 0 + ((List.range n.toNat).map fun k => s.mem.read (s.i.toNat + k)).length ≤ 32 := by
    have := n.isLt
    rw [List.length_map, List.length_range]
    omega
  obtain ⟨hin, hout, hflag⟩ := drawRows_spec (x0 := s.reg x) (y0 := s.reg y) hrows (s.frame, false)
  simp only [spriteCovers_iff]
  exact ⟨hin, hout, hflag.trans (or_iff_right Bool.false_ne_true)⟩

theorem State.reg_setCanvas (c : Canvas) (r : Reg) :
    (s.setCanvas c).reg r = if r = 0xF then (if c.2 then 1 else 0) else s.reg r :=
  State.reg_setFlag (s := s.setFrame c.1) r c.2

/-- Settles O55: rows outside memory are not read; else the canvas of the draw is the screen and `VF`. -/
theorem drawInvertsTheCoveredPixels : Obligations.DrawInvertsTheCoveredPixels := by
  refine ⟨encodes_formatXYN 0xD fun _ => rfl, fun x y n s => ⟨fun hpos hout => ?_, fun hfit => ?_⟩⟩
  · exact exec_of_effect_error (congrArg (Except.map _) (readBlock_outside hpos hout))
  · obtain ⟨hcovered, hother, hflag⟩ := canvasAfterDraw_spec s x y n
    refine ⟨_, exec_drw_of_fits x y hfit, rfl, hcovered, hother, fun hon => ?_, fun hoff => ?_, fun r hr => ?_⟩
    · rw [State.reg_setCanvas, if_pos rfl, if_pos (hflag.2 hon)]
    · rw [State.reg_setCanvas, if_pos rfl, if_neg (mt hflag.1 hoff)]
    · rw [State.reg_setCanvas, if_neg hr]

/-! ### The same draw again (R153) -/

/-- Which pixels a draw covers is a matter of memory, `I` and the two origin registers. -/
theorem spriteCovers_congr {n : Nat} (hmem : t.mem = s.mem) (hi : t.i = s.i) (hx : t.reg x = s.reg x)
    (hy : t.reg y = s.reg y) : SpriteCovers t x y n px py ↔ SpriteCovers s x y n px py := by
  simp only [SpriteCovers, hmem, hi, hx, hy]

/-- A draw that fits, read backwards: it keeps all but the screen and the registers, and its flag is 1 for a collision alone. -/
theorem exec_drw_next (hfit : n.toNat = 0 ∨ s.i.toNat + n.toNat ≤ 0x1000) (h : exec (.drw x y n) s = .next t) :
    t = { s with v := t.v, frame := t.frame } ∧
    (∀ px py, SpriteCovers s x y n.toNat px py → t.frame.pixel px py = !s.frame.pixel px py) ∧
    (∀ px py, ¬ SpriteCovers s x y n.toNat px py → t.frame.pixel px py = s.frame.pixel px py) ∧
    (t.reg 0xF = 1 ↔ ∃ px py, SpriteCovers s x y n.toNat px py ∧ s.frame.pixel px py = true) := by
  obtain ⟨t', ht', hkept, hcovered, hother, hone, hzero, -⟩ := (drawInvertsTheCoveredPixels.2 x y n s).2 hfit
  obtain rfl : t' = t := by simpa using ht'.symm.trans h
  refine ⟨hkept, hcovered, hother, fun hvf => ?_, hone⟩
  by_contra hno
  exact absurd (hvf.symm.trans (hzero hno)) (by decide)

/-- Settles O56: both draws cover the same pixels and invert each of them, so the second finds on what the first found off. -/
theorem drawingTwiceRestoresTheScreen : Obligations.DrawingTwiceRestoresTheScreen := by
  intro x y n s t u hfit hfirst hx hy hsecond
  obtain ⟨hkept, hcovered, hother, -⟩ := exec_drw_next hfit hfirst
  have hmem : t.mem = s.mem := by rw [hkept]
  have hi : t.i = s.i := by rw [hkept]
  obtain ⟨-, hcovered', hother', hflag'⟩ := exec_drw_next (hi ▸ hfit) hsecond
  simp only [spriteCovers_congr hmem hi hx hy] at hcovered' hother' hflag'
  refine ⟨Frame.ext_pixel fun px py => ?_, hflag'.trans ?_⟩
  · by_cases hc : SpriteCovers s x y n.toNat px py
    · rw [hcovered' px py hc, hcovered px py hc, Bool.not_not]
    · rw [hother' px py hc, hother px py hc]
  · refine exists₂_congr fun px py => and_congr_right fun hc => ?_
    rw [hcovered px py hc, Bool.not_eq_true']

/-! ### A second draw without a collision -/

/-- LD I, 0x050 and three draws at the origin of the first row of glyph 0. -/
def threeDraws : List Byte := [0xA0, 0x50, 0xD0, 0x11, 0xD0, 0x11, 0xD0, 0x11]

/-- After the first of `threeDraws`: the four pixels of the row are on. -/
def afterOneDraw : State :=
  { State.reset with
    i := 0x050, pc := 0x204, mem := Memory.writeBytes [] 0x200 threeDraws, loadOpen := false,
    frame := (((Frame.blank.toggle 0 0).toggle 1 0).toggle 2 0).toggle 3 0 }

theorem afterOneDraw_reachable : Reachable afterOneDraw :=
  have hloaded := Reachable.reset.next (.load threeDraws) rfl
  (hloaded.next .step rfl).next .step rfl

/-- The row is 0xF0, so its leftmost pixel is that of the origin. -/
theorem afterOneDraw_covers_origin : SpriteCovers afterOneDraw 0 1 1 0 0 := ⟨0, 0, by decide⟩

/-- Refutes O57, on a reachable state: the first of the two draws finds every covered pixel on and leaves none on, so the second,
which inverts them back, has no collision. -/
theorem not_secondDrawFlagIsOneForEverySprite : ¬ Obligations.SecondDrawFlagIsOneForEverySprite := by
  intro h
  exact absurd (h 0 1 1 afterOneDraw _ _ (by decide) rfl (by decide) (by decide) rfl ⟨0, 0, afterOneDraw_covers_origin⟩)
    (by decide)

end Sys2Proof.Machine

/-! The family of spec/46_input_timer.md: the key skips (R160, R161), the wait for a key (R162), and the reads and writes of the
timers, which the same Step then ticks (R163 to R165). -/

namespace Sys2Proof.Machine

variable {s t : State} {i : Instr} {x k : Reg}

/-! ### The key skips (R160, R161) -/

/-- The key whose number a register holds, for a number below 16. -/
theorem key_setWidth {b : Byte} (h : b.toNat < 16) : s.key (b.setWidth 4) = s.keys[b.toNat]'h := by
  have hb : (b.setWidth 4).toNat = b.toNat := (BitVec.toNat_setWidth 4 b).trans (Nat.mod_eq_of_lt h)
  simp only [State.key, hb]

theorem exec_skp_of_lt (ign : Nibble) (h : (s.reg x).toNat < 16) :
    exec (.skp x ign) s = .next (s.skipIf (s.keys[(s.reg x).toNat]'h)) := by
  rw [← key_setWidth h]
  exact exec_of_effect_ok (effect_of_skipTaken (if_pos (Nat.le_of_lt_succ h)))

theorem exec_sknp_of_lt (ign : Nibble) (h : (s.reg x).toNat < 16) :
    exec (.sknp x ign) s = .next (s.skipIf (!s.keys[(s.reg x).toNat]'h)) := by
  rw [← key_setWidth h]
  exact exec_of_effect_ok (effect_of_skipTaken (if_pos (Nat.le_of_lt_succ h)))

/-- Settles O39: the operand raises above 15; below 16 it is a key, and the handler is the skip by it or by its negation. -/
theorem keySkipsTestTheInputMap : Obligations.KeySkipsTestTheInputMap := by
  refine ⟨encodes_formatXYN_nibble 0xE 0xE fun _ => rfl, encodes_formatXYN_nibble 0xE 0x1 fun _ => rfl,
    fun x ign s => ⟨fun hout => ?_, fun hin => ?_⟩⟩
  · have hraise := keyIndex_outside hout
    exact ⟨exec_of_effect_error (congrArg (Except.map _) hraise), exec_of_effect_error (congrArg (Except.map _) hraise)⟩
  · rw [exec_skp_of_lt ign hin, exec_sknp_of_lt ign hin]
    exact ⟨congrArg _ (s.skipIf_of_iff Iff.rfl), congrArg _ (s.skipIf_of_iff (iff_of_eq (Bool.not_eq_true' _)))⟩

/-! ### The wait for a key (R162) -/

/-- A pressed key with none pressed below it is the one the scan finds. -/
theorem firstKey_of_lowest (hk : s.key k = true) (hlow : ∀ j : Reg, j.toNat < k.toNat → s.key j = false) :
    s.firstKey = some k := by
  cases hf : s.firstKey with
  | none => simp [firstKey_eq_none.1 hf k] at hk
  | some j =>
    obtain ⟨hj, hjlow⟩ := firstKey_eq_some hf
    have hkj : ¬ k.toNat < j.toNat := fun hlt => by simp [hjlow k hlt] at hk
    have hjk : ¬ j.toNat < k.toNat := fun hlt => by simp [hlow j hlt] at hj
    exact congrArg some (BitVec.eq_of_toNat_eq (by omega))

theorem exec_ldVxK_of_noKey (h : ∀ k, s.key k = false) : exec (.ldVxK x) s = .next (s.setPc (s.pc - 2)) := by
  simp only [exec, execLdVxK, firstKey_eq_none.2 h]

theorem exec_ldVxK_of_firstKey (h : s.firstKey = some k) : exec (.ldVxK x) s = .next (s.setReg x (k.setWidth 8)) := by
  simp only [exec, execLdVxK, h]

/-- The wait's `pc - 2` takes the advance back. -/
theorem advance_setPc_back (s : State) : s.advance.setPc (s.advance.pc - 2) = s :=
  congrArg s.setPc (BitVec.add_sub_cancel s.pc 2)

/-- A Step whose handler raised nothing is the handler's state, ticked. -/
theorem step_of_exec (hs : CanFetch s) (hd : decode (nextWord s) = .ok i) (h : exec i s.advance = .next t)
    (ht : t.err = none) : step s = .next { t.tick with loadOpen := false } := by
  rw [step_decoded hs hd, h, closeStep_ok ht]

/-- Settles O58: the scan finds the lowest pressed key or none, and a Step that waits ticks the state it began in. -/
theorem waitForKeyPollsTheInputMap : Obligations.WaitForKeyPollsTheInputMap := by
  refine ⟨encodes_formatXK_byte 0xF 0x0A fun _ => rfl, fun x s => exec_ldVxK_of_noKey, fun x k s hk hlow => ?_,
    fun x s hs hd hnone => ?_⟩
  · refine ⟨_, exec_ldVxK_of_firstKey (firstKey_of_lowest hk hlow), rfl, ?_, fun r hr => State.reg_setReg_other hr _⟩
    rw [State.reg_setReg_self]
    exact BitVec.toNat_setWidth_of_le (by decide)
  · have hwait : exec (.ldVxK x) s.advance = .next s :=
      (exec_ldVxK_of_noKey (s := s.advance) hnone).trans (congrArg _ (advance_setPc_back s))
    exact step_of_exec hs hd hwait hs.running

/-! ### The timers (R163 to R165) -/

/-- Settles O59: the handler copies `DT` before the tick, which acts on `DT` alone. -/
theorem readDelayTimerBeforeTheTick : Obligations.ReadDelayTimerBeforeTheTick := by
  refine ⟨encodes_formatXK_byte 0xF 0x07 fun _ => rfl,
    fun x s => ⟨s.setReg x s.dt, rfl, rfl, fun r => State.reg_setReg x r s.dt⟩, fun x s hs hd => ?_⟩
  exact ⟨_, step_of_exec hs hd rfl hs.running, State.reg_setReg_self (s := s.advance) x s.dt, tickDown_toNat s.dt⟩

/-- Settles O60: the tick acts on the timer that the handler wrote. -/
theorem writingATimerTicksInTheSameStep : Obligations.WritingATimerTicksInTheSameStep := by
  refine ⟨encodes_formatXK_byte 0xF 0x15 fun _ => rfl, encodes_formatXK_byte 0xF 0x18 fun _ => rfl,
    fun _ _ => ⟨rfl, rfl⟩, fun x s hs => ⟨fun hd => ?_, fun hd => ?_⟩⟩
  · exact ⟨_, step_of_exec hs hd rfl hs.running, tickDown_toNat (s.reg x)⟩
  · exact ⟨_, step_of_exec hs hd rfl hs.running, tickDown_toNat (s.reg x)⟩

end Sys2Proof.Machine

/-! The family of spec/60_exceptions.md: which handler raises which error, and only when (R170, R172 to R175, R178). -/

namespace Sys2Proof.Machine

/-- Settles O15: an error left by a handler was raised by its effect, which raises by the instruction's line of
`HandlerRaises`; an instruction without a line of its own raises nothing. -/
theorem onlyTheseHandlersRaise : Obligations.OnlyTheseHandlersRaise := by
  intro i s t e h0 h he
  have hraise : HandlerRaises i s e := effect_error (exec_raised h0 h he).1
  cases i
  case call nnn => exact .inl ⟨nnn, rfl, hraise⟩
  case ret ign => exact .inr (.inl ⟨ign, rfl, hraise⟩)
  case skp x ign => exact .inr (.inr (.inl ⟨x, ign, .inl rfl, hraise⟩))
  case sknp x ign => exact .inr (.inr (.inl ⟨x, ign, .inr rfl, hraise⟩))
  case drw x y n => exact .inr (.inr (.inr (.inl ⟨x, y, n, rfl, hraise⟩)))
  case ldB x => exact .inr (.inr (.inr (.inr (.inl ⟨x, rfl, hraise⟩))))
  case stRegs x => exact .inr (.inr (.inr (.inr (.inr ⟨x, .inl rfl, hraise⟩))))
  case ldRegs x => exact .inr (.inr (.inr (.inr (.inr ⟨x, .inr rfl, hraise⟩))))
  all_goals exact hraise.elim

end Sys2Proof.Machine

/-! The family of spec/70_reset_and_hazards.md: what a Load places, rejects and is refused for (R190 to R192), and a machine
parked at a jump to itself (R195). -/

namespace Sys2Proof.Machine

variable {s t : State} {bytes : List Byte}

/-! ### Load (R191, R192) -/

/-- A Load within the contract ends as its effect says. -/
theorem hostLoad_open (h0 : s.err = none) (ho : s.loadOpen = true) : hostLoad bytes s = commit s (loadImage bytes s) := by
  simp [hostLoad, h0, ho]

theorem hostLoad_closed (h0 : s.err = none) (hc : s.loadOpen = false) :
    hostLoad bytes s = .refused .loadOutsideContract := by
  simp [hostLoad, h0, hc]

theorem loadImage_of_fits (h : bytes.length ≤ Config.maxImage) :
    loadImage bytes s = .ok { s with mem := s.mem.writeBytes Config.progBase bytes, loadOpen := false } :=
  if_neg (Nat.not_lt.2 h)

theorem loadImage_of_long (h : Config.maxImage < bytes.length) : loadImage bytes s = .error (.loadError bytes.length) :=
  if_pos h

/-- Settles O22: an image that fits is a run of writes at 0x200 that ends inside memory; a longer one only raises. -/
theorem loadPlacesTheImage : Obligations.LoadPlacesTheImage := by
  refine fun s bytes => ⟨fun e => hostLoad_latched, fun h0 ho hlong => ?_, fun h0 ho hm hlen => ?_⟩
  · rw [hostLoad_open h0 ho, loadImage_of_long hlong, commit_error]
    rfl
  · have hfit : Config.progBase + bytes.length ≤ Config.memSize := Nat.add_le_add_left hlen 0x200
    rw [hostLoad_open h0 ho, loadImage_of_fits hlen, commit_ok]
    exact ⟨_, rfl, rfl, Memory.read_writeBytes hm hfit⟩

/-- Settles O23: a Step or a Load that completes ends by closing the flag, and only Reset sets it again. -/
theorem loadOutsideTheContractIsRefused : Obligations.LoadOutsideTheContractIsRefused := by
  refine ⟨fun s bytes => hostLoad_closed, fun s t h ht => ?_, fun s t bytes h ht => ?_, fun s => ⟨rfl, rfl⟩⟩
  · obtain ⟨-, -, u, -, -, rfl⟩ := step_completed h ht
    rfl
  · obtain ⟨-, -, ⟨-, rfl⟩ | ⟨-, rfl⟩⟩ := hostLoad_cases h
    · rfl
    · cases ht

/-! ### A parked machine (R195) -/

namespace Parked

variable {a : Addr}

theorem pc_toNat (h : Parked a s) : s.pc.toNat = a.toNat := by rw [h.here, addrImm_toNat]

theorem canFetch (h : Parked a s) : CanFetch s := ⟨h.running, h.pc_toNat ▸ h.inside⟩

/-- The word that a parked machine fetches is the jump to where it stands. -/
theorem decode_nextWord (h : Parked a s) : decode (nextWord s) = .ok (.jp a) := by
  have hw : nextWord s = encode (.jp a) := (congrArg s.mem.wordAt h.pc_toNat).trans h.selfJump
  rw [hw, decode_encode]

/-- The jump takes the advance back. -/
theorem exec_jp_advance (h : Parked a s) : exec (.jp a) s.advance = .next s :=
  congrArg (fun pc => Host.Outcome.next (s.setPc pc)) h.here.symm

/-- Being parked is a matter of the latch, `pc` and memory alone. -/
theorem of_same (h : Parked a s) (he : t.err = s.err) (hp : t.pc = s.pc) (hm : t.mem = s.mem) : Parked a t :=
  ⟨he.trans h.running, hp.trans h.here, h.inside, hm ▸ h.selfJump⟩

end Parked

/-- Settles O35: the jump gives back the state the Step began in, and the tick touches nothing that parks it. -/
theorem parkedMachineOnlyTicks : Obligations.ParkedMachineOnlyTicks :=
  fun _ _ h => ⟨_, step_of_exec h.canFetch h.decode_nextWord h.exec_jp_advance h.running, rfl, h.of_same rfl rfl rfl⟩

end Sys2Proof.Machine
